-- ==== Sys2Proof/Word.lean ====
section
/-! DEFINITION. The value types of r8 CORE (00_scope.md R8, R11): everything is unsigned. -/

namespace Sys2Proof

/-- An 8-bit unsigned value: a general register, a timer, a memory byte (R8, R20, R32). -/
abbrev Byte := BitVec 8

/-- A 16-bit unsigned value: an instruction word, `I`, `pc`, a stack entry, a key vector (R8, R11). -/
abbrev Word16 := BitVec 16

/-- The number of a general register, 0 to 15 (R20): "always in bounds". -/
abbrev RegIx := Fin 16

/-- VF, the register that doubles as the flag (R21). -/
abbrev vf : RegIx := 15

/-- The 64 x 32 grid of pixels, row-major: element `y` is row `y`, its element `x` the pixel in column `x` (R29). -/
abbrev Framebuffer := Vector (Vector Bool 64) 32

end Sys2Proof
end

