-- ==== Sys2Proof/Config.lean ====
section
/-! DEFINITION. What 00_scope.md R8 fixes, the parameters R9 leaves open, and the free values of the model. -/

namespace Sys2Proof

namespace Config

/-- MEM_SIZE: addresses 0x000 to 0xFFF (R8). -/
abbrev memSize : Nat := 4096

/-- RESET_PC (R8). -/
abbrev resetPc : Word16 := 0x200#16

/-- FONT_BASE (R8). -/
abbrev fontBase : Nat := 0x000

/-- The font's length in bytes, 16 glyphs of 5 (R8). -/
abbrev fontSize : Nat := 80

/-- PROGRAM_BASE (R8). -/
abbrev programBase : Nat := 0x200

/-- The longest program `Load` is defined for, 4096 - 512 bytes (70_reset_and_hazards.md R212). -/
abbrev maxProgram : Nat := 3584

/-- The largest `pc` a fetch is valid at (10_state.md R25). -/
abbrev lastFetch : Nat := 4094

/-- The default FONT of 10_state.md R33, which the spec marks as general knowledge and not in the source (GK1).
PRESUMED, log 6: unsafe for a claim about pixels drawn from the font. -/
def fontDefault : Vector Byte fontSize := #v[
  0xF0, 0x90, 0x90, 0x90, 0xF0,  0x20, 0x60, 0x20, 0x20, 0x70,
  0xF0, 0x10, 0xF0, 0x80, 0xF0,  0xF0, 0x10, 0xF0, 0x10, 0xF0,
  0x90, 0x90, 0xF0, 0x10, 0x10,  0xF0, 0x80, 0xF0, 0x10, 0xF0,
  0xF0, 0x80, 0xF0, 0x90, 0xF0,  0xF0, 0x10, 0x20, 0x40, 0x40,
  0xF0, 0x90, 0xF0, 0x90, 0xF0,  0xF0, 0x90, 0xF0, 0x10, 0xF0,
  0xF0, 0x90, 0xF0, 0x90, 0x90,  0xE0, 0x90, 0xE0, 0x90, 0xE0,
  0xF0, 0x80, 0x80, 0x80, 0xF0,  0xE0, 0x90, 0x90, 0x90, 0xE0,
  0xF0, 0x80, 0xF0, 0x80, 0xF0,  0xF0, 0x80, 0xF0, 0x80, 0x80]

/-- The parameters of 00_scope.md R9, each with the domain R9 gives it. A machine's value of this record never
changes; it stands in `State` so that a statement about every state is one for every parameter (log 1). -/
structure Params where
  /-- TICK_PERIOD: time units of the `now` input in 1/60 second (D2). -/
  tickPeriod : Nat
  tickPeriod_pos : 0 < tickPeriod := by decide
  /-- STACK_DEPTH: `none` is INFINITE (D7). -/
  stackDepth : Option Nat
  stackDepth_pos : stackDepth ≠ some 0 := by decide
  /-- FONT: 80 bytes, glyph g at FONT[5g .. 5g+4] (D6). -/
  font : Vector Byte fontSize
  /-- FONT_DIGIT_MODULUS (D26). -/
  fontDigitModulus : Nat
  fontDigitModulus_pos : 0 < fontDigitModulus := by decide
  deriving DecidableEq, Repr

/-- What the host supplies to one step (40_step_cycle.md R91), and the step's draw of KEY_CHOICE (D17). All four
are under no law. -/
structure StepInput where
  /-- Bit k is 1 exactly when keypad code k is held down now. -/
  keys : Word16
  /-- The current time, in time units. -/
  now : Nat
  /-- The byte `random_byte()` returns in this step. -/
  rnd : Byte
  /-- The draw that chooses among several new keys in Fx0A (R9 KEY_CHOICE): not an input of R91, a free value. -/
  pick : Nat
  deriving DecidableEq, Repr, Inhabited

/-- FREE VALUE, log 2: what the host supplies to the step number `n` when `State` lists no pending call. No law. -/
opaque freeInput : Nat → StepInput

/-- FREE VALUE, log 3: TICK_PERIOD less one. R9: "OPEN, no default; any value >= 1". -/
opaque tickPeriodLessOne : Nat

/-- The parameters at their defaults (R9); TICK_PERIOD, which has none, is any positive natural. -/
def defaultParams : Params where
  tickPeriod := tickPeriodLessOne + 1
  tickPeriod_pos := Nat.succ_pos _
  stackDepth := none
  font := fontDefault
  fontDigitModulus := 10

end Config

end Sys2Proof
end

