-- ==== Sys2Proof/Syntax.lean ====
section
/-! DEFINITION. The 35 instructions of 30_encoding.md R74, one constructor per row of spec/opcode_table.json. -/

namespace Sys2Proof

/-- Operands are the unsigned fields of R72: `x`, `y` register numbers, `n` a count, `nn` a byte, `nnn` a 12-bit
address. Fields that the spec decodes and ignores (`nnn` of SysCall, `y` of Shr and Shl) are kept. -/
inductive Instr where
  /-- 00E0 -/ | clear
  /-- 00EE -/ | ret
  /-- 0nnn, other than 00E0 and 00EE -/ | sysCall (nnn : BitVec 12)
  /-- 1nnn -/ | jump (nnn : BitVec 12)
  /-- 2nnn -/ | call (nnn : BitVec 12)
  /-- 3xnn -/ | skipEqImm (x : RegIx) (nn : Byte)
  /-- 4xnn -/ | skipNeqImm (x : RegIx) (nn : Byte)
  /-- 5xy0 -/ | skipEqReg (x y : RegIx)
  /-- 6xnn -/ | loadImm (x : RegIx) (nn : Byte)
  /-- 7xnn -/ | addImm (x : RegIx) (nn : Byte)
  /-- 8xy0 -/ | copy (x y : RegIx)
  /-- 8xy1 -/ | or (x y : RegIx)
  /-- 8xy2 -/ | and (x y : RegIx)
  /-- 8xy3 -/ | xor (x y : RegIx)
  /-- 8xy4 -/ | add (x y : RegIx)
  /-- 8xy5 -/ | sub (x y : RegIx)
  /-- 8xy6 -/ | shr (x y : RegIx)
  /-- 8xy7 -/ | subn (x y : RegIx)
  /-- 8xyE -/ | shl (x y : RegIx)
  /-- 9xy0 -/ | skipNeqReg (x y : RegIx)
  /-- Annn -/ | loadIndex (nnn : BitVec 12)
  /-- Bnnn -/ | jumpOffset (nnn : BitVec 12)
  /-- Cxnn -/ | random (x : RegIx) (nn : Byte)
  /-- Dxyn -/ | draw (x y : RegIx) (n : Fin 16)
  /-- Ex9E -/ | skipKeyPressed (x : RegIx)
  /-- ExA1 -/ | skipKeyNotPressed (x : RegIx)
  /-- Fx07 -/ | getDelay (x : RegIx)
  /-- Fx0A -/ | waitKey (x : RegIx)
  /-- Fx15 -/ | setDelay (x : RegIx)
  /-- Fx18 -/ | setSound (x : RegIx)
  /-- Fx1E -/ | addToIndex (x : RegIx)
  /-- Fx29 -/ | loadFontAddr (x : RegIx)
  /-- Fx33 -/ | storeBCD (x : RegIx)
  /-- Fx55 -/ | regDump (x : RegIx)
  /-- Fx65 -/ | regLoad (x : RegIx)
  deriving DecidableEq, Repr

/-- The name column of R74. -/
def Instr.mnemonic : Instr → String
  | .clear => "Clear"
  | .ret => "Return"
  | .sysCall _ => "SysCall"
  | .jump _ => "Jump"
  | .call _ => "Call"
  | .skipEqImm _ _ => "SkipEqImm"
  | .skipNeqImm _ _ => "SkipNeqImm"
  | .skipEqReg _ _ => "SkipEqReg"
  | .loadImm _ _ => "LoadImm"
  | .addImm _ _ => "AddImm"
  | .copy _ _ => "Copy"
  | .or _ _ => "Or"
  | .and _ _ => "And"
  | .xor _ _ => "Xor"
  | .add _ _ => "Add"
  | .sub _ _ => "Sub"
  | .shr _ _ => "Shr"
  | .subn _ _ => "Subn"
  | .shl _ _ => "Shl"
  | .skipNeqReg _ _ => "SkipNeqReg"
  | .loadIndex _ => "LoadIndex"
  | .jumpOffset _ => "JumpOffset"
  | .random _ _ => "Random"
  | .draw _ _ _ => "Draw"
  | .skipKeyPressed _ => "SkipKeyPressed"
  | .skipKeyNotPressed _ => "SkipKeyNotPressed"
  | .getDelay _ => "GetDelay"
  | .waitKey _ => "WaitKey"
  | .setDelay _ => "SetDelay"
  | .setSound _ => "SetSound"
  | .addToIndex _ => "AddToIndex"
  | .loadFontAddr _ => "LoadFontAddr"
  | .storeBCD _ => "StoreBCD"
  | .regDump _ => "RegDump"
  | .regLoad _ => "RegLoad"

end Sys2Proof
end

