-- ==== Sys2Proof/WellFormed.lean ====
section
/-! DEFINITION. Which terms of `Instr` stand for an instruction. -/

namespace Sys2Proof

/-- Every field's range (R72) is in its type, and R77 makes all 16 values of `x` and `y` legal; what is left to check
is R73: "every other word with `n1 = 0`" is a SysCall, so the two exact words 00E0 and 00EE are none. -/
def Instr.wellFormed : Instr → Bool
  | .sysCall nnn => nnn != 0x0E0#12 && nnn != 0x0EE#12
  | .clear | .ret | .jump _ | .call _ => true
  | .skipEqImm _ _ | .skipNeqImm _ _ | .skipEqReg _ _ | .skipNeqReg _ _ => true
  | .loadImm _ _ | .addImm _ _ | .copy _ _ | .or _ _ | .and _ _ | .xor _ _ => true
  | .add _ _ | .sub _ _ | .shr _ _ | .subn _ _ | .shl _ _ | .random _ _ => true
  | .loadIndex _ | .jumpOffset _ | .draw _ _ _ => true
  | .skipKeyPressed _ | .skipKeyNotPressed _ | .getDelay _ | .waitKey _ => true
  | .setDelay _ | .setSound _ | .addToIndex _ | .loadFontAddr _ => true
  | .storeBCD _ | .regDump _ | .regLoad _ => true

end Sys2Proof
end

