-- ==== Sys2Proof/Decode.lean ====
section
/-! DEFINITION. The decoder and the encoder (30_encoding.md R70 to R77), and the opcode map of R74 as data. -/

namespace Sys2Proof

/-- What decoding one word gives: R73, `decode(word: u16) -> Instruction | DecodeError(word)`. -/
inductive Decoded where
  | instr (i : Instr)
  /-- The word selects no row of R74; it carries the original word (R75). -/
  | decodeError (word : Word16)
  deriving DecidableEq, Repr

/-- What decoding the front of a byte sequence gives. -/
inductive DecodedBytes where
  | instr (i : Instr) (rest : List Byte)
  | decodeError (word : Word16)
  /-- Fewer than the two bytes of a word (R70). The machine's fetch never asks for this. -/
  | tooShort
  deriving DecidableEq, Repr

/-! The fields of R11 and R72. -/

def fieldN1 (w : Word16) : BitVec 4 := w.extractLsb' 12 4
def fieldX (w : Word16) : RegIx := (w.extractLsb' 8 4).toFin
def fieldY (w : Word16) : RegIx := (w.extractLsb' 4 4).toFin
def fieldN4 (w : Word16) : BitVec 4 := w.extractLsb' 0 4
def fieldN (w : Word16) : Fin 16 := (fieldN4 w).toFin
def fieldNN (w : Word16) : Byte := w.extractLsb' 0 8
def fieldNNN (w : Word16) : BitVec 12 := w.extractLsb' 0 12

/-- R73: the two exact words win over 0nnn. -/
def decodeZero (w : Word16) : Decoded :=
  if w = 0x00E0#16 then .instr .clear
  else if w = 0x00EE#16 then .instr .ret
  else .instr (.sysCall (fieldNNN w))

/-- The rows 8xy0 to 8xyE: function code `n4` (R74 rows 11 to 19). -/
def decodeAlu (w : Word16) : Decoded :=
  let x := fieldX w
  let y := fieldY w
  match fieldN4 w with
  | 0x0#4 => .instr (.copy x y)
  | 0x1#4 => .instr (.or x y)
  | 0x2#4 => .instr (.and x y)
  | 0x3#4 => .instr (.xor x y)
  | 0x4#4 => .instr (.add x y)
  | 0x5#4 => .instr (.sub x y)
  | 0x6#4 => .instr (.shr x y)
  | 0x7#4 => .instr (.subn x y)
  | 0xE#4 => .instr (.shl x y)
  | _ => .decodeError w

/-- The rows Ex9E and ExA1: function code `nn` (R74 rows 25, 26). -/
def decodeKey (w : Word16) : Decoded :=
  match fieldNN w with
  | 0x9E#8 => .instr (.skipKeyPressed (fieldX w))
  | 0xA1#8 => .instr (.skipKeyNotPressed (fieldX w))
  | _ => .decodeError w

/-- The nine rows Fx..: function code `nn` (R74 rows 27 to 35). -/
def decodeMisc (w : Word16) : Decoded :=
  let x := fieldX w
  match fieldNN w with
  | 0x07#8 => .instr (.getDelay x)
  | 0x0A#8 => .instr (.waitKey x)
  | 0x15#8 => .instr (.setDelay x)
  | 0x18#8 => .instr (.setSound x)
  | 0x1E#8 => .instr (.addToIndex x)
  | 0x29#8 => .instr (.loadFontAddr x)
  | 0x33#8 => .instr (.storeBCD x)
  | 0x55#8 => .instr (.regDump x)
  | 0x65#8 => .instr (.regLoad x)
  | _ => .decodeError w

/-- The decoder of R73: a function of the word alone, dispatching on the nibbles (R71). -/
def decode (w : Word16) : Decoded :=
  let x := fieldX w
  let y := fieldY w
  let nn := fieldNN w
  let nnn := fieldNNN w
  match fieldN1 w with
  | 0x0#4 => decodeZero w
  | 0x1#4 => .instr (.jump nnn)
  | 0x2#4 => .instr (.call nnn)
  | 0x3#4 => .instr (.skipEqImm x nn)
  | 0x4#4 => .instr (.skipNeqImm x nn)
  | 0x5#4 => if fieldN4 w = 0x0#4 then .instr (.skipEqReg x y) else .decodeError w
  | 0x6#4 => .instr (.loadImm x nn)
  | 0x7#4 => .instr (.addImm x nn)
  | 0x8#4 => decodeAlu w
  | 0x9#4 => if fieldN4 w = 0x0#4 then .instr (.skipNeqReg x y) else .decodeError w
  | 0xA#4 => .instr (.loadIndex nnn)
  | 0xB#4 => .instr (.jumpOffset nnn)
  | 0xC#4 => .instr (.random x nn)
  | 0xD#4 => .instr (.draw x y (fieldN w))
  | 0xE#4 => decodeKey w
  | _ => decodeMisc w -- n1 = 0xF, the one value left

/-- The word at the front of a byte sequence: the byte at the lower address is the high byte (R53, R70). -/
def wordOfBytes (hi lo : Byte) : Word16 := hi ++ lo

/-- The decoder on bytes, in memory order. -/
def decodeBytes : List Byte → DecodedBytes
  | hi :: lo :: rest =>
    match decode (wordOfBytes hi lo) with
    | .instr i => .instr i rest
    | .decodeError w => .decodeError w
  | _ => .tooShort

/-! The encoder, from the format table of R71 and the rows of R74. -/

/-- The four bits of a register number or of a count. -/
def nibbleOf (x : Fin 16) : BitVec 4 := BitVec.ofFin x

/-- Format NNN. -/
def encNNN (n1 : BitVec 4) (nnn : BitVec 12) : Word16 := n1 ++ nnn

/-- Formats XNN and X (the function code of format X stands in the place of `nn`). -/
def encXNN (n1 : BitVec 4) (x : RegIx) (nn : Byte) : Word16 := (n1 ++ nibbleOf x) ++ nn

/-- Formats XY and XYN (the function code of format XY stands in the place of `n`). -/
def encXYN (n1 : BitVec 4) (x y : RegIx) (n : BitVec 4) : Word16 := (n1 ++ nibbleOf x) ++ (nibbleOf y ++ n)

/-- The word of an instruction. -/
def encode : Instr → Word16
  | .clear => 0x00E0#16
  | .ret => 0x00EE#16
  | .sysCall nnn => encNNN 0x0#4 nnn
  | .jump nnn => encNNN 0x1#4 nnn
  | .call nnn => encNNN 0x2#4 nnn
  | .skipEqImm x nn => encXNN 0x3#4 x nn
  | .skipNeqImm x nn => encXNN 0x4#4 x nn
  | .skipEqReg x y => encXYN 0x5#4 x y 0x0#4
  | .loadImm x nn => encXNN 0x6#4 x nn
  | .addImm x nn => encXNN 0x7#4 x nn
  | .copy x y => encXYN 0x8#4 x y 0x0#4
  | .or x y => encXYN 0x8#4 x y 0x1#4
  | .and x y => encXYN 0x8#4 x y 0x2#4
  | .xor x y => encXYN 0x8#4 x y 0x3#4
  | .add x y => encXYN 0x8#4 x y 0x4#4
  | .sub x y => encXYN 0x8#4 x y 0x5#4
  | .shr x y => encXYN 0x8#4 x y 0x6#4
  | .subn x y => encXYN 0x8#4 x y 0x7#4
  | .shl x y => encXYN 0x8#4 x y 0xE#4
  | .skipNeqReg x y => encXYN 0x9#4 x y 0x0#4
  | .loadIndex nnn => encNNN 0xA#4 nnn
  | .jumpOffset nnn => encNNN 0xB#4 nnn
  | .random x nn => encXNN 0xC#4 x nn
  | .draw x y n => encXYN 0xD#4 x y (nibbleOf n)
  | .skipKeyPressed x => encXNN 0xE#4 x 0x9E#8
  | .skipKeyNotPressed x => encXNN 0xE#4 x 0xA1#8
  | .getDelay x => encXNN 0xF#4 x 0x07#8
  | .waitKey x => encXNN 0xF#4 x 0x0A#8
  | .setDelay x => encXNN 0xF#4 x 0x15#8
  | .setSound x => encXNN 0xF#4 x 0x18#8
  | .addToIndex x => encXNN 0xF#4 x 0x1E#8
  | .loadFontAddr x => encXNN 0xF#4 x 0x29#8
  | .storeBCD x => encXNN 0xF#4 x 0x33#8
  | .regDump x => encXNN 0xF#4 x 0x55#8
  | .regLoad x => encXNN 0xF#4 x 0x65#8

/-- An instruction's bytes as `mem` holds them (R70): the high byte at the lower address. -/
def encodeBytes (i : Instr) : List Byte := [(encode i).extractLsb' 8 8, (encode i).extractLsb' 0 8]

/-! The opcode map of R74, beside the decoder: a second writing of the same table, to state the decoder against. -/

/-- One row of R74: `w & mask = value`, and not one of the words taken out. -/
structure OpcodeRow where
  name : String
  mask : Word16
  value : Word16
  exclude : List Word16 := []
  deriving DecidableEq, Repr

/-- R74: "a word `w` selects the row when `w & mask = match`". -/
def OpcodeRow.selects (r : OpcodeRow) (w : Word16) : Bool := (w &&& r.mask == r.value) && !(r.exclude.contains w)

/-- Rows 1 to 10, 20 to 24 of R74 (families selected by `n1`, `n4` or the whole word). -/
def opcodeRowsPlain : List OpcodeRow := [
  ⟨"Clear", 0xFFFF, 0x00E0, []⟩,
  ⟨"Return", 0xFFFF, 0x00EE, []⟩,
  ⟨"SysCall", 0xF000, 0x0000, [0x00E0, 0x00EE]⟩,
  ⟨"Jump", 0xF000, 0x1000, []⟩,
  ⟨"Call", 0xF000, 0x2000, []⟩,
  ⟨"SkipEqImm", 0xF000, 0x3000, []⟩,
  ⟨"SkipNeqImm", 0xF000, 0x4000, []⟩,
  ⟨"SkipEqReg", 0xF00F, 0x5000, []⟩,
  ⟨"LoadImm", 0xF000, 0x6000, []⟩,
  ⟨"AddImm", 0xF000, 0x7000, []⟩,
  ⟨"SkipNeqReg", 0xF00F, 0x9000, []⟩,
  ⟨"LoadIndex", 0xF000, 0xA000, []⟩,
  ⟨"JumpOffset", 0xF000, 0xB000, []⟩,
  ⟨"Random", 0xF000, 0xC000, []⟩,
  ⟨"Draw", 0xF000, 0xD000, []⟩]

/-- Rows 11 to 19 of R74. -/
def opcodeRowsAlu : List OpcodeRow := [
  ⟨"Copy", 0xF00F, 0x8000, []⟩,
  ⟨"Or", 0xF00F, 0x8001, []⟩,
  ⟨"And", 0xF00F, 0x8002, []⟩,
  ⟨"Xor", 0xF00F, 0x8003, []⟩,
  ⟨"Add", 0xF00F, 0x8004, []⟩,
  ⟨"Sub", 0xF00F, 0x8005, []⟩,
  ⟨"Shr", 0xF00F, 0x8006, []⟩,
  ⟨"Subn", 0xF00F, 0x8007, []⟩,
  ⟨"Shl", 0xF00F, 0x800E, []⟩]

/-- Rows 25 to 35 of R74. -/
def opcodeRowsX : List OpcodeRow := [
  ⟨"SkipKeyPressed", 0xF0FF, 0xE09E, []⟩,
  ⟨"SkipKeyNotPressed", 0xF0FF, 0xE0A1, []⟩,
  ⟨"GetDelay", 0xF0FF, 0xF007, []⟩,
  ⟨"WaitKey", 0xF0FF, 0xF00A, []⟩,
  ⟨"SetDelay", 0xF0FF, 0xF015, []⟩,
  ⟨"SetSound", 0xF0FF, 0xF018, []⟩,
  ⟨"AddToIndex", 0xF0FF, 0xF01E, []⟩,
  ⟨"LoadFontAddr", 0xF0FF, 0xF029, []⟩,
  ⟨"StoreBCD", 0xF0FF, 0xF033, []⟩,
  ⟨"RegDump", 0xF0FF, 0xF055, []⟩,
  ⟨"RegLoad", 0xF0FF, 0xF065, []⟩]

/-- The complete opcode map of R74. -/
def opcodeMap : List OpcodeRow := opcodeRowsPlain ++ opcodeRowsAlu ++ opcodeRowsX

/-! The host's entry. -/

/-- The two bytes, in memory order, of an instruction whose bits are the low bits of `w` (log 29). -/
def tableBytes (nbits w : Nat) : List Byte :=
  let word := BitVec.ofNat 16 (w % 2 ^ nbits)
  [word.extractLsb' 8 8, word.extractLsb' 0 8]

/-- The instruction the decoder reads from a word of spec/opcode_table.json, laid out as the hardware stores it. -/
def decodeTableWord (nbits w : Nat) : Option Instr :=
  match decodeBytes (tableBytes nbits w) with
  | .instr i _ => some i
  | .decodeError _ => none
  | .tooShort => none

end Sys2Proof
end

