-- ==== Sys2Proof/Machine/State.lean ====
section
/-! DEFINITION. The machine's state (10_state.md), its fatal errors (60_exceptions.md R180), the reasons a step can
stop, and the state after reset (10_state.md R38, 70_reset_and_hazards.md R210). -/

namespace Sys2Proof.Machine

/-- The fatal errors of 60_exceptions.md R180, each with the information it records. -/
inductive FatalError where
  /-- Code 1: the word fetched selects no row of the opcode map (R181). -/
  | decodeError (word : Word16)
  /-- Code 2: Return with an empty stack (R182). -/
  | stackUnderflow
  /-- Code 3: an access above address 0xFFF; `addr` is the lowest offending address (R183). -/
  | addressOutOfRange (addr : Nat)
  /-- Code 4: Call on a full stack, only when STACK_DEPTH is finite (R184). -/
  | stackOverflow
  deriving DecidableEq, Repr

/-- What one step returns to the host (40_step_cycle.md R95). -/
inductive StepResult where
  | ok (drawPending soundActive : Bool)
  | fatal (e : FatalError)
  deriving DecidableEq, Repr

/-- How far the host has come: `Load` is defined once, after `Reset` and before the first `Step` (R90, R212). -/
inductive Launch where
  | constructed
  | loaded
  | stepping
  deriving DecidableEq, Repr

/-- The reasons for which a step stops with a fault: none. Every fatal error of the spec has its entry described
(60_exceptions.md R186) and is taken as a next state in which `State.halted` records it; a step of a halted machine
is described too (R187) (log 10). -/
inductive Fault where
  deriving DecidableEq, Repr

/-- The reasons for which the model gives no meaning. -/
inductive Refusal where
  /-- Raised by an arm of `exec` whose instruction has no meaning yet: none is left. Safe. -/
  | notModelled (mnemonic : String)
  /-- Raised by the host operation `Load`, never by a step: a program of more than 3584 bytes, or a load at another
  time than between `Reset` and the first `Step`, to which 70_reset_and_hazards.md R212 gives no behaviour. Safe. -/
  | loadOutsideDomain
  deriving DecidableEq, Repr

/-- The memory: the bytes that differ from what the address holds after reset, by rising address (log 16). -/
abbrev Memory := List Host.Cell

/-- The state of 10_state.md, then the step's result, the parameters, and the model's own input fields. -/
structure State where
  /-- V0 to VF (R20); VF is also the flag (R21). -/
  v : Vector Byte 16
  /-- The index register I (R22). -/
  i : Word16
  /-- The program counter (R23). -/
  pc : Word16
  /-- The call stack (R26), its newest entry first; SP is its length (log 15). -/
  stack : List Word16
  /-- The delay timer DT (R27). -/
  dt : Byte
  /-- The sound timer ST (R27). -/
  st : Byte
  /-- The time up to which elapsed ticks are charged (R28). -/
  lastTick : Nat
  /-- The framebuffer (R29). -/
  fb : Framebuffer
  /-- Bit k: key k was held in the current or most recent step (R30). -/
  keysCur : Word16
  /-- The same for the step before (R30). -/
  keysPrev : Word16
  /-- The run state (R31): `none` is running. -/
  halted : Option FatalError
  /-- The memory (R32). -/
  mem : Memory
  /-- What the last step returned (40_step_cycle.md R95); `none` before the first step. -/
  result : Option StepResult
  /-- The parameters of 00_scope.md R9; nothing writes them (log 1). -/
  cfg : Config.Params
  /-- The model's own: the host's pending `Step` calls, oldest first (log 2). -/
  inputs : List Config.StepInput
  /-- The model's own: the number of steps taken, to which the free input is applied (log 2). -/
  inputCount : Nat
  /-- The model's own: the inputs of the step being executed (40_step_cycle.md R91; log 12). -/
  input : Config.StepInput
  /-- The model's own: whether `Load` is still defined (R90; log 13). -/
  launch : Launch
  deriving DecidableEq, Repr

/-- `Reset(t0)` of a machine with parameters `cfg`: the table of 10_state.md R38. -/
def State.resetAt (t0 : Nat) (cfg : Config.Params) : State where
  v := Vector.replicate 16 0x00#8
  i := 0x0000#16
  pc := Config.resetPc
  stack := []
  dt := 0x00#8
  st := 0x00#8
  lastTick := t0
  fb := Vector.replicate 32 (Vector.replicate 64 false)
  keysCur := 0x0000#16
  keysPrev := 0x0000#16
  halted := none
  mem := []
  result := none
  cfg := cfg
  inputs := []
  inputCount := 0
  input := { keys := 0x0000#16, now := 0, rnd := 0x00#8, pick := 0 }
  launch := .constructed

/-- The machine right after reset, with the default parameters, time counted from the reset (logs 3 to 8). -/
def State.reset : State := State.resetAt 0 Config.defaultParams

end Sys2Proof.Machine
end

