-- ==== Sys2Proof/Machine/Ops.lean ====
section
/-! DEFINITION. The named operations over memory, the range check, and the taking of a fatal error. -/

namespace Sys2Proof.Machine

/-! Memory (20_memory.md). -/

/-- What an address that the memory does not list reads as: what it holds after reset (10_state.md R38), the font in
0x000 to 0x04F and 0x00 above it. -/
def Memory.unlisted (font : Vector Byte Config.fontSize) (a : Nat) : Byte :=
  if h : a - Config.fontBase < Config.fontSize then font[a - Config.fontBase] else 0x00#8

/-- The byte at an address; `base` is what unlisted addresses read as. -/
def Memory.read (base : Nat → Byte) : Memory → Nat → Byte
  | [], a => base a
  | (b, w) :: rest, a => if a = b then w else Memory.read base rest a

/-- The memory without a cell at `a`. -/
def Memory.erase (a : Nat) (m : Memory) : Memory := m.filter (fun c => c.1 != a)

/-- A cell put in its place, before the first cell of a higher address. -/
def Memory.insert (a : Nat) (v : Byte) : Memory → Memory
  | [] => [(a, v)]
  | c :: rest => if a < c.1 then (a, v) :: c :: rest else c :: Memory.insert a v rest

/-- The memory with the byte at `a` set: a cell is kept only where it differs from `base`. -/
def Memory.put (base : Nat → Byte) (a : Nat) (v : Byte) (m : Memory) : Memory :=
  if v = base a then Memory.erase a m else Memory.insert a v (Memory.erase a m)

/-- `Memory.put` at an address that exists; there is no cell above 0xFFF to write (20_memory.md R56: every
instruction checks first, so the other branch is never taken). -/
def Memory.write (base : Nat → Byte) (a : Nat) (v : Byte) (m : Memory) : Memory :=
  if a < Config.memSize then Memory.put base a v m else m

/-- The canonical form (log 16): addresses strictly rising and below 4096, no entry that equals `base`. -/
abbrev Memory.wf (base : Nat → Byte) (m : Memory) : Prop :=
  m.Pairwise (fun p q => p.1 < q.1) ∧ ∀ c ∈ m, c.1 < Config.memSize ∧ c.2 ≠ base c.1

/-- What an unlisted address of this machine's memory reads as. -/
def State.memBase (s : State) : Nat → Byte := Memory.unlisted s.cfg.font

/-- MemRead(addr, 1) of 00_scope.md R12, at an address that has passed the range check. -/
def State.readByte (s : State) (a : Nat) : Byte := Memory.read s.memBase s.mem a

/-- MemWrite(addr, 1, v) of 00_scope.md R12, at an address that has passed the range check. -/
def State.writeByte (a : Nat) (v : Byte) (s : State) : State := { s with mem := Memory.write s.memBase a v s.mem }

/-- Single-byte stores at consecutive ascending addresses (20_memory.md R52, R61). -/
def State.writeBytes : Nat → List Byte → State → State
  | _, [], s => s
  | a, v :: vs, s => State.writeBytes (a + 1) vs (s.writeByte a v)

/-- `len` bytes at consecutive ascending addresses. -/
def State.readBytes (s : State) : Nat → Nat → List Byte
  | _, 0 => []
  | a, len + 1 => s.readByte a :: s.readBytes (a + 1) len

/-- The range check of 20_memory.md R56 and R57 for the `len` bytes from `base`: the lowest offending address, if one
lies above 0xFFF. Addresses are natural numbers, never wrapped (R55). -/
def outOfRange (base len : Nat) : Option Nat :=
  if len = 0 ∨ base + len ≤ Config.memSize then none else some (max base Config.memSize)

/-! Fatal errors (60_exceptions.md). -/

/-- The code of R180 (log 32). -/
def FatalError.code : FatalError → Nat
  | .decodeError _ => 1
  | .stackUnderflow => 2
  | .addressOutOfRange _ => 3
  | .stackOverflow => 4

/-- `raise E(info)` (R186): `halted <- E(info)` and nothing else; the step returns Fatal(E(info)) in its report.
There is no return from it (R187). -/
def raise (e : FatalError) (s : State) : Host.Outcome State Fault Refusal := .next { s with halted := some e }

/-- An instruction that accesses the `len` bytes from `base`: AddressOutOfRange before its first write, or its effect
(20_memory.md R57). -/
def withinMemory (base len : Nat) (effect : State → State) (s : State) : Host.Outcome State Fault Refusal :=
  match outOfRange base len with
  | some addr => raise (.addressOutOfRange addr) s
  | none => .next (effect s)

end Sys2Proof.Machine
end

