-- ==== Sys2Proof/Machine/Operands.lean ====
section
/-! DEFINITION. Operand forms: the register file, `I` and `pc`, the call stack, the effective address, the keys. -/

namespace Sys2Proof.Machine

/-- `V[r]` (10_state.md R20). -/
def State.getV (s : State) (r : RegIx) : Byte := s.v[r]

/-- `V[r] <- b` (R20): no register is hardwired or read-only. -/
def State.setV (r : RegIx) (b : Byte) (s : State) : State := { s with v := s.v.set r b }

/-- `I <- a` (R22). -/
def State.setI (a : Word16) (s : State) : State := { s with i := a }

/-- `pc <- target` (00_scope.md R12). -/
def State.setPc (target : Word16) (s : State) : State := { s with pc := target }

/-- SP, the number of entries on the stack (R26). -/
def State.sp (s : State) : Nat := s.stack.length

/-- `stack[SP] <- a; SP <- SP + 1` (R26). -/
def State.push (a : Word16) (s : State) : State := { s with stack := a :: s.stack }

/-- STACK_DEPTH is finite and SP has reached it (41_control_flow.md R113). -/
def State.stackFull (s : State) : Bool :=
  match s.cfg.stackDepth with
  | none => false
  | some depth => decide (depth ≤ s.sp)

/-- `zext_16` of a 12-bit address (30_encoding.md R72). -/
def zextAddr (nnn : BitVec 12) : Word16 := nnn.setWidth 16

/-- `zext_16` of a byte. -/
def zextByte (b : Byte) : Word16 := b.setWidth 16

/-- The base of the index-relative addressing mode, a natural number: byte k lies at `I + k` (44_index_memory.md
R156). -/
def State.indexAddr (s : State) : Nat := s.i.toNat

/-- A skip adds 2 to the advanced `pc` (42_skips.md R124). -/
def skipIf (taken : Bool) (s : State) : State := if taken then s.setPc (s.pc + 2#16) else s

/-- Register number `k`, for k from 0 to 15. -/
def regAt (k : Nat) : RegIx := ⟨k % 16, Nat.mod_lt _ (by decide)⟩

/-- V[0] to V[x], ascending (44_index_memory.md R154). -/
def State.regRange (s : State) (x : RegIx) : List Byte := (List.range (x.val + 1)).map (fun k => s.getV (regAt k))

/-- `V[k] <- MemRead(a + k, 1)` for k = 0 to count - 1, ascending (44_index_memory.md R155). -/
def loadRegs (a : Nat) : Nat → State → State
  | 0, s => s
  | k + 1, s => let s' := loadRegs a k s; s'.setV (regAt k) (s.readByte (a + k))

/-- The key whose code is in a register is held in the current snapshot; a code above 15 is never pressed
(46_keypad_timers.md R170). -/
def State.keyPressed (s : State) (code : Byte) : Bool := decide (code.toNat ≤ 15) && s.keysCur.getLsbD code.toNat

/-- The keys pressed now and not one step ago (46_keypad_timers.md R173). -/
def State.newKeys (s : State) : Word16 := s.keysCur &&& ~~~s.keysPrev

/-- The codes of a key vector, ascending. -/
def keyCodes (keys : Word16) : List Nat := (List.range 16).filter (fun k => keys.getLsbD k)

/-- A member of the set `keys` (R173), which one is the draw `pick` (KEY_CHOICE, log 9); 0 when there is none. -/
def pickKey (keys : Word16) (pick : Nat) : Nat :=
  (keyCodes keys).getD (pick % (keyCodes keys).length) 0

end Sys2Proof.Machine
end

