-- ==== Sys2Proof/Machine/Flags.lean ====
section
/-! DEFINITION. The one flag, VF (10_state.md R34), and the order in which it is written (43_load_alu.md R132). -/

namespace Sys2Proof.Machine

/-- 0x00 or 0x01, what VF holds for a flag (R132). -/
def flagByte (b : Bool) : Byte := if b then 0x01#8 else 0x00#8

/-- Add: 1 if `a + b > 255` (R137). -/
def carryFlag (a b : Byte) : Bool := decide (a.toNat + b.toNat > 255)

/-- Sub and Subn: 1 if the subtraction `a - b` does not borrow, `a >= b` (R138, R140; D12, log 18). -/
def noBorrowFlag (a b : Byte) : Bool := decide (a.toNat ≥ b.toNat)

/-- Shr: bit 0 of the operand before the shift (R139). -/
def lowBitFlag (a : Byte) : Bool := a.getLsbD 0

/-- Shl: bit 7 of the operand before the shift (R141). -/
def highBitFlag (a : Byte) : Bool := a.getLsbD 7

/-- R132: the flag is written first, the result second, so with `x = 15` the result stays (D11, log 18). -/
def flagThenResult (x : RegIx) (flag : Bool) (result : Byte) (s : State) : State :=
  (s.setV vf (flagByte flag)).setV x result

end Sys2Proof.Machine
end

