-- ==== Sys2Proof/Machine/ControlFlow.lean ====
section
/-! DEFINITION. 41_control_flow.md: Return, SysCall, Jump, Call, JumpOffset. `pc` is already the address plus 2. -/

namespace Sys2Proof.Machine

/-- Return (00EE), R110. -/
def execRet (s : State) : Host.Outcome State Fault Refusal :=
  match s.stack with
  | [] => raise .stackUnderflow s
  | a :: rest => .next { s with stack := rest, pc := a }

/-- SysCall (0nnn), R111: "no-op (legacy machine code, deliberately unimplemented)", for every word (D32, log 25). -/
def execSysCall (_nnn : BitVec 12) (s : State) : Host.Outcome State Fault Refusal := .next s

/-- Jump (1nnn), R112. -/
def execJump (nnn : BitVec 12) (s : State) : Host.Outcome State Fault Refusal := .next (s.setPc (zextAddr nnn))

/-- Call (2nnn), R113: pushes the advanced `pc`; StackOverflow when a finite stack is full (D7, log 7). -/
def execCall (nnn : BitVec 12) (s : State) : Host.Outcome State Fault Refusal :=
  if s.stackFull then raise .stackOverflow s else .next ((s.push s.pc).setPc (zextAddr nnn))

/-- JumpOffset (Bnnn), R114: the sum is not reduced to 12 bits (D29, log 26). -/
def execJumpOffset (nnn : BitVec 12) (s : State) : Host.Outcome State Fault Refusal :=
  .next (s.setPc (zextByte (s.getV 0) + zextAddr nnn))

end Sys2Proof.Machine
end

