-- ==== Sys2Proof/Machine/Display.lean ====
section
/-! DEFINITION. 45_display.md: Clear and Draw. -/

namespace Sys2Proof.Machine

/-- The pixel in column `px` and row `py`, both taken modulo the grid (10_state.md R29). -/
def fbPixel (fb : Framebuffer) (px py : Nat) : Bool :=
  (fb[py % 32]'(Nat.mod_lt _ (by decide)))[px % 64]'(Nat.mod_lt _ (by decide))

/-- The grid with that pixel inverted. -/
def fbFlip (fb : Framebuffer) (px py : Nat) : Framebuffer :=
  fb.set (py % 32) ((fb[py % 32]'(Nat.mod_lt _ (by decide))).set (px % 64) (!(fbPixel fb px py)) (Nat.mod_lt _ (by decide)))
    (Nat.mod_lt _ (by decide))

/-- The framebuffer and the collision flag while a sprite is blitted. -/
structure Blit where
  fb : Framebuffer
  hit : Bool
  deriving DecidableEq, Repr

/-- One sprite bit at column `px`, row `py` (R161): a 1 bit inverts the pixel and collides if it was on. -/
def blitBit (px py : Nat) (bit : Bool) (b : Blit) : Blit :=
  if bit then { fb := fbFlip b.fb px py, hit := b.hit || fbPixel b.fb px py } else b

/-- Columns `c` to 7 of one sprite row: `left` counts those still to draw; `bit_index` 0 is bit 7 of the byte, the
leftmost (R161 (ii); PRESUMED by the spec, GK2, log 20). -/
def blitRow (vx py : Nat) (row : Byte) : Nat → Blit → Blit
  | 0, b => b
  | left + 1, b =>
    let c := 8 - (left + 1)
    blitRow vx py row left (blitBit (vx + c) py (row.getLsbD (7 - c)) b)

/-- The sprite rows from row index `r` on. Coordinates wrap per pixel, in both axes (R161). -/
def blitRows (vx vy : Nat) : Nat → List Byte → Blit → Blit
  | _, [], b => b
  | r, row :: rows, b => blitRows vx vy (r + 1) rows (blitRow vx (vy + r) row 8 b)

/-- Clear (00E0), R160. -/
def execClear (s : State) : Host.Outcome State Fault Refusal :=
  .next { s with fb := Vector.replicate 32 (Vector.replicate 64 false) }

/-- What Draw does once its sprite lies in memory: the coordinates, `I` and the sprite are read before any write; VF is
0, or 1 if a pixel went from on to off (R161; D15, GK3, log 20). -/
def drawSprite (x y : RegIx) (n : Nat) (s : State) : State :=
  let sprite := s.readBytes s.indexAddr n
  let b := blitRows (s.getV x).toNat (s.getV y).toNat 0 sprite { fb := s.fb, hit := false }
  { s.setV vf (flagByte b.hit) with fb := b.fb }

/-- Draw (Dxyn), R161. -/
def execDraw (x y : RegIx) (n : Fin 16) (s : State) : Host.Outcome State Fault Refusal :=
  withinMemory s.indexAddr n.val (drawSprite x y n.val) s

end Sys2Proof.Machine
end

