-- ==== Sys2Proof/Machine/IndexMemory.lean ====
section
/-! DEFINITION. 44_index_memory.md: the instructions that write `I` and those that access memory through it. -/

namespace Sys2Proof.Machine

/-- LoadIndex (Annn), R150. -/
def execLoadIndex (nnn : BitVec 12) (s : State) : Host.Outcome State Fault Refusal := .next (s.setI (zextAddr nnn))

/-- AddToIndex (Fx1E), R151: modulo 65536, VF not written (D10, D14, log 19). -/
def execAddToIndex (x : RegIx) (s : State) : Host.Outcome State Fault Refusal :=
  .next (s.setI (s.i + zextByte (s.getV x)))

/-- LoadFontAddr (Fx29), R152: FONT_BASE + (V[x] mod FONT_DIGIT_MODULUS) * 5 (D26, log 8). -/
def execLoadFontAddr (x : RegIx) (s : State) : Host.Outcome State Fault Refusal :=
  .next (s.setI (BitVec.ofNat 16 (Config.fontBase + ((s.getV x).toNat % s.cfg.fontDigitModulus) * 5)))

/-- The three decimal digits of a byte, hundreds first (R153; the order is PRESUMED by the spec, GK5, log 21). -/
def bcdDigits (b : Byte) : List Byte :=
  [BitVec.ofNat 8 (b.toNat / 100), BitVec.ofNat 8 (b.toNat / 10 % 10), BitVec.ofNat 8 (b.toNat % 10)]

/-- StoreBCD (Fx33), R153. -/
def execStoreBCD (x : RegIx) (s : State) : Host.Outcome State Fault Refusal :=
  withinMemory s.indexAddr 3 (fun s => s.writeBytes s.indexAddr (bcdDigits (s.getV x))) s

/-- RegDump (Fx55), R154: V[0] to V[x] inclusive; `I` is unchanged (D23, log 23). -/
def execRegDump (x : RegIx) (s : State) : Host.Outcome State Fault Refusal :=
  withinMemory s.indexAddr (x.val + 1) (fun s => s.writeBytes s.indexAddr (s.regRange x)) s

/-- RegLoad (Fx65), R155: V[0] to V[x] inclusive; `I` is unchanged (D23, log 23). -/
def execRegLoad (x : RegIx) (s : State) : Host.Outcome State Fault Refusal :=
  withinMemory s.indexAddr (x.val + 1) (fun s => loadRegs s.indexAddr (x.val + 1) s) s

end Sys2Proof.Machine
end

