-- ==== Sys2Proof/Machine/KeypadTimers.lean ====
section
/-! DEFINITION. 46_keypad_timers.md: key skips, WaitKey, the timer instructions. The timers are already charged and the
snapshots already rotated. -/

namespace Sys2Proof.Machine

/-- SkipKeyPressed (Ex9E), R170: a level test; a code above 15 never skips. -/
def execSkipKeyPressed (x : RegIx) (s : State) : Host.Outcome State Fault Refusal :=
  .next (skipIf (s.keyPressed (s.getV x)) s)

/-- SkipKeyNotPressed (ExA1), R171: a code above 15 always skips. -/
def execSkipKeyNotPressed (x : RegIx) (s : State) : Host.Outcome State Fault Refusal :=
  .next (skipIf (!(s.keyPressed (s.getV x))) s)

/-- WaitKey (Fx0A), R173: no new key rewinds `pc` by 2; else a new key, any of them (D17, log 9), goes to V[x]. -/
def execWaitKey (x : RegIx) (s : State) : Host.Outcome State Fault Refusal :=
  .next (if s.newKeys = 0#16 then s.setPc (s.pc - 2#16)
    else s.setV x (BitVec.ofNat 8 (pickKey s.newKeys s.input.pick)))

/-- GetDelay (Fx07), R174 (the meaning is PRESUMED by the spec, GK4, log 22). -/
def execGetDelay (x : RegIx) (s : State) : Host.Outcome State Fault Refusal := .next (s.setV x s.dt)

/-- SetDelay (Fx15), R175 (GK4, log 22): `last_tick` is not reset. -/
def execSetDelay (x : RegIx) (s : State) : Host.Outcome State Fault Refusal := .next { s with dt := s.getV x }

/-- SetSound (Fx18), R176 (GK4, log 22). -/
def execSetSound (x : RegIx) (s : State) : Host.Outcome State Fault Refusal := .next { s with st := s.getV x }

end Sys2Proof.Machine
end

