-- ==== Sys2Proof/Machine/LoadAlu.lean ====
section
/-! DEFINITION. 43_load_alu.md: loads, the ALU family, Random. Arithmetic wraps modulo 256 (R143). -/

namespace Sys2Proof.Machine

/-- LoadImm (6xnn), R130. -/
def execLoadImm (x : RegIx) (nn : Byte) (s : State) : Host.Outcome State Fault Refusal := .next (s.setV x nn)

/-- AddImm (7xnn), R131: "wrapping, no flag". -/
def execAddImm (x : RegIx) (nn : Byte) (s : State) : Host.Outcome State Fault Refusal :=
  .next (s.setV x (s.getV x + nn))

/-- Copy (8xy0), R133. -/
def execCopy (x y : RegIx) (s : State) : Host.Outcome State Fault Refusal := .next (s.setV x (s.getV y))

/-- Or (8xy1), R134: VF is not reset (D14, log 19). -/
def execOr (x y : RegIx) (s : State) : Host.Outcome State Fault Refusal := .next (s.setV x (s.getV x ||| s.getV y))

/-- And (8xy2), R135: VF is not reset (D14, log 19). -/
def execAnd (x y : RegIx) (s : State) : Host.Outcome State Fault Refusal := .next (s.setV x (s.getV x &&& s.getV y))

/-- Xor (8xy3), R136: VF is not reset (D14, log 19). -/
def execXor (x y : RegIx) (s : State) : Host.Outcome State Fault Refusal := .next (s.setV x (s.getV x ^^^ s.getV y))

/-- Add (8xy4), R137. -/
def execAdd (x y : RegIx) (s : State) : Host.Outcome State Fault Refusal :=
  let a := s.getV x
  let b := s.getV y
  .next (flagThenResult x (carryFlag a b) (a + b) s)

/-- Sub (8xy5), R138. -/
def execSub (x y : RegIx) (s : State) : Host.Outcome State Fault Refusal :=
  let a := s.getV x
  let b := s.getV y
  .next (flagThenResult x (noBorrowFlag a b) (a - b) s)

/-- Shr (8xy6), R139: `y` is ignored (D13, log 18). -/
def execShr (x _y : RegIx) (s : State) : Host.Outcome State Fault Refusal :=
  let a := s.getV x
  .next (flagThenResult x (lowBitFlag a) (a >>> 1) s)

/-- Subn (8xy7), R140. -/
def execSubn (x y : RegIx) (s : State) : Host.Outcome State Fault Refusal :=
  let a := s.getV x
  let b := s.getV y
  .next (flagThenResult x (noBorrowFlag b a) (b - a) s)

/-- Shl (8xyE), R141: `y` is ignored (D13, log 18). -/
def execShl (x _y : RegIx) (s : State) : Host.Outcome State Fault Refusal :=
  let a := s.getV x
  .next (flagThenResult x (highBitFlag a) (a <<< 1) s)

/-- Random (Cxnn), R142: the byte is the step's input `rnd`, under no law (D18, log 2). -/
def execRandom (x : RegIx) (nn : Byte) (s : State) : Host.Outcome State Fault Refusal :=
  .next (s.setV x (s.input.rnd &&& nn))

end Sys2Proof.Machine
end

