-- ==== Sys2Proof/Machine/Skips.lean ====
section
/-! DEFINITION. 42_skips.md: the four conditional skips. -/

namespace Sys2Proof.Machine

/-- SkipEqImm (3xnn), R120. -/
def execSkipEqImm (x : RegIx) (nn : Byte) (s : State) : Host.Outcome State Fault Refusal :=
  .next (skipIf (s.getV x == nn) s)

/-- SkipNeqImm (4xnn), R121. -/
def execSkipNeqImm (x : RegIx) (nn : Byte) (s : State) : Host.Outcome State Fault Refusal :=
  .next (skipIf (s.getV x != nn) s)

/-- SkipEqReg (5xy0), R122. -/
def execSkipEqReg (x y : RegIx) (s : State) : Host.Outcome State Fault Refusal :=
  .next (skipIf (s.getV x == s.getV y) s)

/-- SkipNeqReg (9xy0), R123. -/
def execSkipNeqReg (x y : RegIx) (s : State) : Host.Outcome State Fault Refusal :=
  .next (skipIf (s.getV x != s.getV y) s)

end Sys2Proof.Machine
end

