-- ==== Sys2Proof/Machine/Phases.lean ====
section
/-! DEFINITION. The phases of a step other than the execute phase (40_step_cycle.md R96), and the host's operations
Reset, Load and ReadFramebuffer (R90). -/

namespace Sys2Proof.Machine

/-! The call `Step(keys, now, rnd)`. -/

/-- The inputs of the next step: the host's oldest pending call, or, when none is listed, free values (log 2). -/
def State.nextInput (s : State) : Config.StepInput :=
  match s.inputs with
  | [] => Config.freeInput s.inputCount
  | inp :: _ => inp

/-- A step begins: its inputs are latched. Nothing of the spec's state changes. -/
def State.takeInput (s : State) : State :=
  { s with
    input := s.nextInput
    inputs := s.inputs.tail
    inputCount := s.inputCount + 1
    launch := .stepping }

/-! Phase 1, timers (R97). -/

/-- The whole ticks elapsed since `last_tick`; a clock that goes backwards counts as none (D4, log 24). -/
def State.ticks (s : State) : Nat := (s.input.now - s.lastTick) / s.cfg.tickPeriod

/-- `t - min(t, ticks)`: saturating at zero. -/
def countDown (t : Byte) (ticks : Nat) : Byte := BitVec.ofNat 8 (t.toNat - min t.toNat ticks)

/-- Phase 1: `last_tick` moves by whole periods only, the remainder is kept (D3, log 24). -/
def timerPhase (s : State) : State :=
  { s with
    dt := countDown s.dt s.ticks
    st := countDown s.st s.ticks
    lastTick := if 1 ≤ s.ticks then s.lastTick + s.ticks * s.cfg.tickPeriod else s.lastTick }

/-! Phase 2, input (R98). -/

/-- `keys_prev <- keys_cur; keys_cur <- keys`. -/
def inputPhase (s : State) : State := { s with keysPrev := s.keysCur, keysCur := s.input.keys }

/-! Phase 3, fetch (R99). -/

/-- The address of AddressOutOfRange for a fetch at `pc`: the lowest of `pc`, `pc + 1` above 0xFFF (20_memory.md R56). -/
def fetchFault (s : State) : Option Nat := outOfRange s.pc.toNat 2

/-- `mem[pc] ++ mem[pc + 1]`, big-endian (20_memory.md R53), at any `pc`, odd or even (R54). -/
def fetchWord (s : State) : Word16 := wordOfBytes (s.readByte s.pc.toNat) (s.readByte (s.pc.toNat + 1))

/-- `pc <- pc + 2`, before the execute phase. -/
def advancePc (s : State) : State := s.setPc (s.pc + 2#16)

/-! Phase 6, report (R103). -/

/-- "only Draw and Clear require a redraw" (R103; D34, log 27). -/
def requestsRedraw : Instr → Bool
  | .clear => true
  | .draw _ _ _ => true
  | .ret | .sysCall _ | .jump _ | .call _ => false
  | .skipEqImm _ _ | .skipNeqImm _ _ | .skipEqReg _ _ | .skipNeqReg _ _ => false
  | .loadImm _ _ | .addImm _ _ | .copy _ _ | .or _ _ | .and _ _ | .xor _ _ => false
  | .add _ _ | .sub _ _ | .shr _ _ | .subn _ _ | .shl _ _ | .random _ _ => false
  | .loadIndex _ | .jumpOffset _ => false
  | .skipKeyPressed _ | .skipKeyNotPressed _ | .getDelay _ | .waitKey _ => false
  | .setDelay _ | .setSound _ | .addToIndex _ | .loadFontAddr _ => false
  | .storeBCD _ | .regDump _ | .regLoad _ => false

/-- The step's result (R95): Fatal with the recorded error, or Ok; `sound_active` is read after phase 5. -/
def stepResult (redraw : Bool) (s : State) : StepResult :=
  match s.halted with
  | some e => .fatal e
  | none => .ok redraw (s.st != 0#8)

/-- The result is handed to the host. -/
def reportPhase (redraw : Bool) (s : State) : State := { s with result := some (stepResult redraw s) }

/-- The report on an outcome of the execute phase. -/
def reportOutcome (redraw : Bool) : Host.Outcome State Fault Refusal → Host.Outcome State Fault Refusal
  | .next s => .next (reportPhase redraw s)
  | .fault f => .fault f
  | .refused r => .refused r

/-! The host's other operations. -/

/-- `Reset(t0)` on a machine (70_reset_and_hazards.md R210): the only way out of the halted state. The parameters are
the machine's; the step counter is kept, so that free inputs are not repeated (log 4). -/
def State.hostReset (t0 : Nat) (s : State) : State := { State.resetAt t0 s.cfg with inputCount := s.inputCount }

/-- `Load(bytes)` (R212): copies the program to 0x200 and changes nothing else; outside its domain the model refuses
the launch (D24, log 13). -/
def State.hostLoad (bytes : List Byte) (s : State) : Host.Outcome State Fault Refusal :=
  if s.launch = .constructed ∧ bytes.length ≤ Config.maxProgram then
    .next { s.writeBytes Config.programBase bytes with launch := .loaded }
  else .refused .loadOutsideDomain

/-- `ReadFramebuffer()` (R94): the value of `fb`; no state changes. -/
def State.readFramebuffer (s : State) : Framebuffer := s.fb

/-- A call `Step(keys, now, rnd)` the host is going to make, added to those pending (log 2). -/
def State.hostCall (inp : Config.StepInput) (s : State) : State := { s with inputs := s.inputs ++ [inp] }

end Sys2Proof.Machine
end

