-- ==== Sys2Proof/Machine/Execute.lean ====
section
/-! DEFINITION. The phases of a step put together: what `step` calls (40_step_cycle.md R96). -/

namespace Sys2Proof.Machine

/-- Phases 1 and 2, on a state whose inputs are latched. -/
def beginStep (s : State) : State := inputPhase (timerPhase s)

/-- A step of a halted machine (60_exceptions.md R187): no phase is performed, Fatal is returned again. -/
def haltedStep (s : State) : Host.Outcome State Fault Refusal := .next (reportPhase false s)

/-- A fetch that is not valid (R99): AddressOutOfRange, `pc` not advanced. -/
def failFetch (addr : Nat) (s : State) : Host.Outcome State Fault Refusal :=
  reportOutcome false (raise (.addressOutOfRange addr) s)

/-- Phases 4 to 6 for the word fetched: `s` is the state that phases 1 to 3 left, `pc` advanced (R100, R101, R103). -/
def runWord (w : Word16) (s : State) : Host.Outcome State Fault Refusal :=
  match decode w with
  | .decodeError word => reportOutcome false (raise (.decodeError word) s)
  | .instr i => reportOutcome (requestsRedraw i) (exec i s)

/-- Phases 3 to 6, on the state that phases 1 and 2 left. -/
def fetchAndRun (s : State) : Host.Outcome State Fault Refusal :=
  match fetchFault s with
  | some addr => failFetch addr s
  | none => runWord (fetchWord s) (advancePc s)

/-- The two bytes of an instruction stored at `pc`, or at 0x200 where no fetch at `pc` is valid, in a running machine
(log 30). -/
def placeWord (nbits w : Nat) (s : State) : State :=
  let ready : State := { s with halted := none, pc := if (fetchFault s).isSome then Config.resetPc else s.pc }
  ready.writeBytes ready.pc.toNat (tableBytes nbits w)

end Sys2Proof.Machine
end

