-- ==== Sys2Proof/Machine/Step.lean ====
section
/-! DEFINITION. One step of the machine (40_step_cycle.md R96), and the host's placing of an instruction. -/

namespace Sys2Proof.Machine

/-- `Step(keys, now, rnd)` (R96): in the halted state no phase is performed (R187); else the six phases in order. -/
def step (s : State) : Host.Outcome State Fault Refusal :=
  match s.halted with
  | some _ => haltedStep s.takeInput
  | none => fetchAndRun (beginStep s.takeInput)

/-- `s` with the instruction placed where the next step fetches (log 30). It stands for the host's `Load` (log 14). -/
def State.withFetchWord (s : State) (nbits w : Nat) : State := placeWord nbits w s

end Sys2Proof.Machine
end

