-- ==== Sys2Proof/Safety.lean ====
section
/-! DEFINITION. The terms claims are made in: a running machine, the invariants of 10_state.md R39, what an
instruction may write and what it leaves unchanged. -/

namespace Sys2Proof.Machine

/-- The run state "running" (10_state.md R31). A run is safe as long as it stays so: a fatal error sets `halted`. -/
abbrev State.running (s : State) : Prop := s.halted = none

/-- The information a recorded fatal error can hold (60_exceptions.md R180). -/
def FatalError.legal (cfg : Config.Params) : FatalError → Prop
  | .decodeError w => decode w = .decodeError w
  | .stackUnderflow => True
  | .addressOutOfRange addr => 0x1000 ≤ addr ∧ addr ≤ 0xFFFF
  | .stackOverflow => cfg.stackDepth ≠ none

/-- What holds in every reachable state: 10_state.md R39 (b), (c), (d), the canonical form of the memory (log 16), and
the information of a recorded fatal error. R39 (a) and (e) are the widths of the types. -/
structure State.Inv (s : State) : Prop where
  pc_range : s.pc.toNat ≤ 0x10FE
  stack_entries : ∀ a ∈ s.stack, a.toNat ≤ 0x1000
  stack_depth : ∀ depth, s.cfg.stackDepth = some depth → s.sp ≤ depth
  mem_canonical : Memory.wf s.memBase s.mem
  halted_legal : ∀ e, s.halted = some e → e.legal s.cfg

/-- What an operation may write: the registers and fields named, and the `memLen` bytes from `memLo`. -/
structure Writes where
  regs : List RegIx := []
  index : Bool := false
  pc : Bool := false
  stack : Bool := false
  dt : Bool := false
  st : Bool := false
  fb : Bool := false
  halted : Bool := false
  launch : Bool := false
  memLo : Nat := 0
  memLen : Nat := 0

/-- `t` differs from `s` at most in what `w` names: every other register, field and byte of memory is unchanged. -/
structure Frame (w : Writes) (s t : State) : Prop where
  regs : ∀ r, r ∉ w.regs → t.getV r = s.getV r
  index : w.index = false → t.i = s.i
  pc : w.pc = false → t.pc = s.pc
  stack : w.stack = false → t.stack = s.stack
  dt : w.dt = false → t.dt = s.dt
  st : w.st = false → t.st = s.st
  fb : w.fb = false → t.fb = s.fb
  halted : w.halted = false → t.halted = s.halted
  launch : w.launch = false → t.launch = s.launch
  mem : ∀ a, ¬(w.memLo ≤ a ∧ a < w.memLo + w.memLen) → t.readByte a = s.readByte a
  lastTick : t.lastTick = s.lastTick
  keysCur : t.keysCur = s.keysCur
  keysPrev : t.keysPrev = s.keysPrev
  result : t.result = s.result
  cfg : t.cfg = s.cfg
  inputs : t.inputs = s.inputs
  inputCount : t.inputCount = s.inputCount
  input : t.input = s.input

/-- The spec's whole state (the list of 10_state.md) is the same in `s` and `t`. -/
structure SameMachine (s t : State) : Prop where
  v : t.v = s.v
  i : t.i = s.i
  pc : t.pc = s.pc
  stack : t.stack = s.stack
  dt : t.dt = s.dt
  st : t.st = s.st
  lastTick : t.lastTick = s.lastTick
  fb : t.fb = s.fb
  keysCur : t.keysCur = s.keysCur
  keysPrev : t.keysPrev = s.keysPrev
  halted : t.halted = s.halted
  mem : t.mem = s.mem
  cfg : t.cfg = s.cfg

/-- Some 1 bit of the sprite that `Draw V[x], V[y], n` reads in state `s` lands on column `px`, row `py` (45_display.md
R161: `bit_index` c is bit 7 - c of the byte, coordinates wrap per pixel). -/
def SpriteOn (s : State) (x y : RegIx) (n : Nat) (px py : Nat) : Prop :=
  ∃ r, r < n ∧ ∃ c, c < 8 ∧ px = ((s.getV x).toNat + c) % 64 ∧ py = ((s.getV y).toNat + r) % 32 ∧
    (s.readByte (s.indexAddr + r)).getLsbD (7 - c) = true

/-- The ticks phase 1 of the next step charges (40_step_cycle.md R97). -/
def State.nextTicks (s : State) : Nat := (s.nextInput.now - s.lastTick) / s.cfg.tickPeriod

/-- The word the next step fetches where its fetch is valid (20_memory.md R53). -/
def State.nextWord (s : State) : Word16 := s.readByte s.pc.toNat ++ s.readByte (s.pc.toNat + 1)

end Sys2Proof.Machine

namespace Sys2Proof

/-- The instructions whose row in the table of 10_state.md R24 is "every other instruction". -/
def Instr.sequential : Instr → Bool
  | .jump _ | .call _ | .ret | .jumpOffset _ => false
  | .skipEqImm _ _ | .skipNeqImm _ _ | .skipEqReg _ _ | .skipNeqReg _ _ => false
  | .skipKeyPressed _ | .skipKeyNotPressed _ | .waitKey _ => false
  | .clear | .sysCall _ | .loadImm _ _ | .addImm _ _ | .copy _ _ | .or _ _ | .and _ _ | .xor _ _ => true
  | .add _ _ | .sub _ _ | .shr _ _ | .subn _ _ | .shl _ _ | .random _ _ => true
  | .loadIndex _ | .draw _ _ _ | .getDelay _ | .setDelay _ | .setSound _ | .addToIndex _ => true
  | .loadFontAddr _ | .storeBCD _ | .regDump _ | .regLoad _ => true

/-- The conditional skips: the row "3xnn, 4xnn, 5xy0, 9xy0, Ex9E, ExA1" of that table. -/
def Instr.isSkip : Instr → Bool
  | .skipEqImm _ _ | .skipNeqImm _ _ | .skipEqReg _ _ | .skipNeqReg _ _ => true
  | .skipKeyPressed _ | .skipKeyNotPressed _ => true
  | .clear | .ret | .sysCall _ | .jump _ | .call _ | .jumpOffset _ | .waitKey _ => false
  | .loadImm _ _ | .addImm _ _ | .copy _ _ | .or _ _ | .and _ _ | .xor _ _ => false
  | .add _ _ | .sub _ _ | .shr _ _ | .subn _ _ | .shl _ _ | .random _ _ => false
  | .loadIndex _ | .draw _ _ _ | .getDelay _ | .setDelay _ | .setSound _ | .addToIndex _ => false
  | .loadFontAddr _ | .storeBCD _ | .regDump _ | .regLoad _ => false

/-- The instruction writes register `r` by naming it as its destination, a block load's range included. -/
def Instr.destination (r : RegIx) : Instr → Bool
  | .loadImm x _ | .addImm x _ | .random x _ => x == r
  | .copy x _ | .or x _ | .and x _ | .xor x _ => x == r
  | .add x _ | .sub x _ | .shr x _ | .subn x _ | .shl x _ => x == r
  | .getDelay x | .waitKey x => x == r
  | .regLoad x => decide (r.val ≤ x.val)
  | .clear | .ret | .sysCall _ | .jump _ | .call _ | .jumpOffset _ | .loadIndex _ | .draw _ _ _ => false
  | .skipEqImm _ _ | .skipNeqImm _ _ | .skipEqReg _ _ | .skipNeqReg _ _ => false
  | .skipKeyPressed _ | .skipKeyNotPressed _ | .setDelay _ | .setSound _ | .addToIndex _ => false
  | .loadFontAddr _ | .storeBCD _ | .regDump _ => false

/-- The instruction writes VF as the flag: the rows of the table of 10_state.md R34. -/
def Instr.writesFlag : Instr → Bool
  | .add _ _ | .sub _ _ | .subn _ _ | .shr _ _ | .shl _ _ | .draw _ _ _ => true
  | .clear | .ret | .sysCall _ | .jump _ | .call _ | .jumpOffset _ | .loadIndex _ => false
  | .skipEqImm _ _ | .skipNeqImm _ _ | .skipEqReg _ _ | .skipNeqReg _ _ => false
  | .loadImm _ _ | .addImm _ _ | .copy _ _ | .or _ _ | .and _ _ | .xor _ _ | .random _ _ => false
  | .skipKeyPressed _ | .skipKeyNotPressed _ | .getDelay _ | .waitKey _ | .setDelay _ | .setSound _ => false
  | .addToIndex _ | .loadFontAddr _ | .storeBCD _ | .regDump _ | .regLoad _ => false

end Sys2Proof
end

