-- ==== Sys2Proof/Certificates/Slice0/Obligations.lean ====
section
/-! DEFINITION. The statements for the provers. `a` in a comment is the address of the instruction; `exec` is the execute
phase, in which `pc` already holds `a + 2` (40_step_cycle.md R101). -/

open Sys2Proof Sys2Proof.Machine

/-! ## Encoding (30_encoding.md) -/

/-- No bit of an encoding is dropped: every operand at every value comes back. -/
def Obligations.DecodeOfEncodeIsTheInstruction : Prop :=
  ∀ i : Instr, i.wellFormed = true → decode (encode i) = .instr i

/-- Every legal word has one meaning. -/
def Obligations.EncodeOfADecodedWordIsTheWord : Prop :=
  ∀ (w : Word16) (i : Instr), decode w = .instr i → i.wellFormed = true ∧ encode i = w

/-- R73, against the rows of R74 as data: the row a word selects names the instruction, a word that selects none yields
the error that carries it, fatal for the machine, and the only overlap of the patterns is that of the two exact words
with 0nnn. -/
def Obligations.DecoderFollowsTheOpcodeMap : Prop :=
  decode 0x00E0#16 = .instr .clear ∧ decode 0x00EE#16 = .instr .ret ∧
  (∀ w : Word16, w.extractLsb' 12 4 = 0x0#4 → w ≠ 0x00E0#16 → w ≠ 0x00EE#16 →
    decode w = .instr (.sysCall (w.extractLsb' 0 12))) ∧
  (∀ w : Word16,
    (∀ r ∈ opcodeMap, r.selects w = true → ∃ i, decode w = .instr i ∧ i.mnemonic = r.name) ∧
    ((∀ r ∈ opcodeMap, r.selects w = false) → decode w = .decodeError w)) ∧
  (∀ (w : Word16) (r q : OpcodeRow), r ∈ opcodeMap → q ∈ opcodeMap → w &&& r.mask = r.value → w &&& q.mask = q.value →
    r ≠ q → w = 0x00E0#16 ∨ w = 0x00EE#16) ∧
  ∀ s : State, s.halted = none → s.pc.toNat ≤ 4094 → (∀ r ∈ opcodeMap, r.selects s.nextWord = false) →
    ∃ t, step s = .next t ∧ t.halted = some (.decodeError s.nextWord)

/-- The table of R75, with n1 = w / 4096, n4 = w mod 16 and nn = w mod 256. -/
def Obligations.IllegalWordsAreTheFiveClasses : Prop :=
  ∀ w : Word16, decode w = .decodeError w ↔
    (w.toNat / 4096 = 0x5 ∧ w.toNat % 16 ≠ 0) ∨
    (w.toNat / 4096 = 0x8 ∧ w.toNat % 16 ∉ [0x0, 0x1, 0x2, 0x3, 0x4, 0x5, 0x6, 0x7, 0xE]) ∨
    (w.toNat / 4096 = 0x9 ∧ w.toNat % 16 ≠ 0) ∨
    (w.toNat / 4096 = 0xE ∧ w.toNat % 256 ∉ [0x9E, 0xA1]) ∨
    (w.toNat / 4096 = 0xF ∧ w.toNat % 256 ∉ [0x07, 0x0A, 0x15, 0x18, 0x1E, 0x29, 0x33, 0x55, 0x65])

/-- Words written out from the spec's encodings (95_test_vectors.md section 2.1, 30_encoding.md R78), one of each
family and of each format. -/
def Obligations.WordsOfTheSpecDecodeAsItSays : Prop :=
  decode 0x00E0#16 = .instr .clear ∧ decode 0xFFFF#16 = .decodeError 0xFFFF#16 ∧
  decode 0xD5A7#16 = .instr (.draw 5 10 7) ∧ decode 0x00EE#16 = .instr .ret ∧
  decode 0x0000#16 = .instr (.sysCall 0x000#12) ∧ decode 0x5121#16 = .decodeError 0x5121#16 ∧
  decode 0x812E#16 = .instr (.shl 1 2) ∧ decode 0x1204#16 = .instr (.jump 0x204#12) ∧
  decode 0x3100#16 = .instr (.skipEqImm 1 0x00#8) ∧ decode 0x8014#16 = .instr (.add 0 1) ∧
  decode 0xBFFF#16 = .instr (.jumpOffset 0xFFF#12) ∧ decode 0xCF00#16 = .instr (.random 15 0x00#8) ∧
  decode 0xE0A1#16 = .instr (.skipKeyNotPressed 0) ∧ decode 0xFA1E#16 = .instr (.addToIndex 10) ∧
  decode 0xF265#16 = .instr (.regLoad 2) ∧ decode 0xF175#16 = .decodeError 0xF175#16

/-! ## The step (40_step_cycle.md, 60_exceptions.md) -/

/-- R53: at every `pc` the byte at the lower address is the high byte of the word. -/
def Obligations.FetchIsBigEndian : Prop :=
  ∀ s : State, (fetchWord s).extractLsb' 8 8 = s.readByte s.pc.toNat ∧
    (fetchWord s).extractLsb' 0 8 = s.readByte (s.pc.toNat + 1)

/-- A step of a running machine whose fetch is valid is the execute phase of the decoded instruction, on the state that
latching the inputs, the timer phase, the snapshot rotation and the advance of `pc` leave, followed by the report. -/
def Obligations.StepRunsTheDecodedInstruction : Prop :=
  ∀ (s : State) (i : Instr), s.halted = none → s.pc.toNat ≤ 4094 →
    decode (s.readByte s.pc.toNat ++ s.readByte (s.pc.toNat + 1)) = .instr i →
    step s = reportOutcome (requestsRedraw i) (exec i (advancePc (inputPhase (timerPhase s.takeInput))))

/-- R98, for every step of a running machine, one that ends in a fatal error included. -/
def Obligations.SnapshotsRotateInEveryRunningStep : Prop :=
  ∀ s : State, s.halted = none →
    ∃ t, step s = .next t ∧ t.keysPrev = s.keysCur ∧ t.keysCur = s.nextInput.keys

/-- R97 with decisions D2, D3 and D4 (log 24), over the whole machine: `last_tick` moves by whole periods, and DT and ST
by the whole ticks, saturating at zero, unless the step executes the instruction that writes the timer: SetDelay leaves
V[x] in DT, SetSound leaves V[x] in ST. That Fx15 is the one and Fx18 the other is decision D22, which is general
knowledge (GK4, log 22 PRESUMED). -/
def Obligations.EveryRunningStepChargesWholeTicks : Prop :=
  ∀ s : State, s.halted = none →
    ∃ t, step s = .next t ∧
      t.lastTick = s.lastTick + ((s.nextInput.now - s.lastTick) / s.cfg.tickPeriod) * s.cfg.tickPeriod ∧
      (∀ x, s.pc.toNat ≤ 4094 → decode s.nextWord = .instr (.setDelay x) → t.dt = s.getV x) ∧
      ((4094 < s.pc.toNat ∨ ∀ x, decode s.nextWord ≠ .instr (.setDelay x)) →
        t.dt.toNat = s.dt.toNat - (s.nextInput.now - s.lastTick) / s.cfg.tickPeriod) ∧
      (∀ x, s.pc.toNat ≤ 4094 → decode s.nextWord = .instr (.setSound x) → t.st = s.getV x) ∧
      ((4094 < s.pc.toNat ∨ ∀ x, decode s.nextWord ≠ .instr (.setSound x)) →
        t.st.toNat = s.st.toNat - (s.nextInput.now - s.lastTick) / s.cfg.tickPeriod)

/-- R28 with decision D3: "leftover fractional time is preserved, not dropped". -/
def Obligations.LessThanOneTickStaysUncharged : Prop :=
  ∀ s : State, s.halted = none → s.lastTick ≤ s.nextInput.now →
    ∃ t, step s = .next t ∧ t.lastTick ≤ s.nextInput.now ∧ s.nextInput.now < t.lastTick + s.cfg.tickPeriod

/-- R99 and R186 with decisions D9 and D19 (the ticks: D4): the fetch at `pc > 4094`. -/
def Obligations.FetchPastTheEndIsFatal : Prop :=
  ∀ s : State, s.halted = none → 4094 < s.pc.toNat →
    ∃ t, step s = .next t ∧ t.halted = some (.addressOutOfRange (max s.pc.toNat 0x1000)) ∧
      t.result = some (.fatal (.addressOutOfRange (max s.pc.toNat 0x1000))) ∧
      t.pc = s.pc ∧ t.v = s.v ∧ t.i = s.i ∧ t.stack = s.stack ∧ t.fb = s.fb ∧ t.mem = s.mem ∧
      t.dt.toNat = s.dt.toNat - s.nextTicks ∧ t.st.toNat = s.st.toNat - s.nextTicks ∧
      t.keysPrev = s.keysCur ∧ t.keysCur = s.nextInput.keys

/-- R100 and R181: the step raises DecodeError with the raw word, `pc` already past the bad word. -/
def Obligations.IllegalWordIsADecodeError : Prop :=
  ∀ s : State, s.halted = none → s.pc.toNat ≤ 4094 →
    decode (s.readByte s.pc.toNat ++ s.readByte (s.pc.toNat + 1)) =
      .decodeError (s.readByte s.pc.toNat ++ s.readByte (s.pc.toNat + 1)) →
    ∃ t, step s = .next t ∧
      t.halted = some (.decodeError (s.readByte s.pc.toNat ++ s.readByte (s.pc.toNat + 1))) ∧
      t.result = some (.fatal (.decodeError (s.readByte s.pc.toNat ++ s.readByte (s.pc.toNat + 1)))) ∧
      t.pc.toNat = s.pc.toNat + 2

/-- R186 with decision D19 (the ticks: D4): what a decode error leaves. -/
def Obligations.DecodeErrorLeavesTheRest : Prop :=
  ∀ s : State, s.halted = none → s.pc.toNat ≤ 4094 → decode s.nextWord = .decodeError s.nextWord →
    ∃ t, step s = .next t ∧ t.halted ≠ none ∧ t.v = s.v ∧ t.i = s.i ∧ t.stack = s.stack ∧ t.fb = s.fb ∧ t.mem = s.mem ∧
      t.dt.toNat = s.dt.toNat - s.nextTicks ∧ t.st.toNat = s.st.toNat - s.nextTicks ∧
      t.keysPrev = s.keysCur ∧ t.keysCur = s.nextInput.keys

/-- R57, R101 and R186 with decisions D8 and D19: an instruction that raises a fatal error writes nothing else. -/
def Obligations.AFailingInstructionWritesNothing : Prop :=
  ∀ (i : Instr) (s t : State), s.halted = none → exec i s = .next t → t.halted ≠ none →
    ∃ e, t = { s with halted := some e }

/-- R180 and R185 with decisions D7 and D8: which instruction raises which error, and exactly when. -/
def Obligations.FatalErrorsOfTheExecutePhase : Prop :=
  ∀ (i : Instr) (s : State) (e : FatalError), s.halted = none →
    ((∃ t, exec i s = .next t ∧ t.halted = some e) ↔
      (i = .ret ∧ s.stack = [] ∧ e = .stackUnderflow) ∨
      (∃ nnn depth, i = .call nnn ∧ s.cfg.stackDepth = some depth ∧ depth ≤ s.stack.length ∧ e = .stackOverflow) ∨
      (e = .addressOutOfRange (max s.i.toNat 0x1000) ∧
        ((∃ x y n, i = .draw x y n ∧ 1 ≤ n.val ∧ 0xFFF < s.i.toNat + n.val - 1) ∨
          (∃ x, i = .storeBCD x ∧ 0xFFF < s.i.toNat + 2) ∨
          (∃ x, (i = .regDump x ∨ i = .regLoad x) ∧ 0xFFF < s.i.toNat + x.val))))

/-- R187 with decision D19: the halted state is absorbing, whatever the host supplies, for any number of steps. -/
def Obligations.AHaltedMachineStaysAsItIs : Prop :=
  ∀ (n : Nat) (s : State) (e : FatalError), s.halted = some e →
    ∃ t, Host.Core.run core n s = .next t ∧ SameMachine s t ∧ (0 < n → t.result = some (.fatal e))

/-- R95 and R102: every step returns, with Fatal exactly when an error is recorded. -/
def Obligations.EveryStepReturnsAResult : Prop :=
  ∀ s : State, ∃ t r, step s = .next t ∧ t.result = some r ∧ ∀ e, r = .fatal e ↔ t.halted = some e

/-- R103 with decision D34: what a completed step reports. -/
def Obligations.ReportOfACompletedStep : Prop :=
  ∀ (s t : State) (i : Instr), s.halted = none → s.pc.toNat ≤ 4094 → decode s.nextWord = .instr i →
    step s = .next t → t.halted = none →
    ∃ drawPending soundActive, t.result = some (.ok drawPending soundActive) ∧
      (drawPending = true ↔ i = .clear ∨ ∃ x y n, i = .draw x y n) ∧ (soundActive = true ↔ t.st ≠ 0x00#8)

/-- R24 (derived there): `pc` after a step, for the rows that do not name a target. The first clause takes in a Draw,
StoreBCD, RegDump or RegLoad that ends in AddressOutOfRange, for which R24 refers to the table of R186 (60_exceptions.md
section 4): that such a step leaves `pc` at the old `pc` plus 2 is the spec's own choice, decision D19 (log 10). -/
def Obligations.PcAfterAStep : Prop :=
  ∀ (s : State) (i : Instr), s.halted = none → s.pc.toNat ≤ 4094 → decode s.nextWord = .instr i →
    ∃ t, step s = .next t ∧
      (i.sequential = true → t.pc.toNat = s.pc.toNat + 2) ∧
      (i.isSkip = true → t.pc.toNat = s.pc.toNat + 2 ∨ t.pc.toNat = s.pc.toNat + 4) ∧
      (∀ x, i = .waitKey x → t.pc = s.pc ∨ t.pc.toNat = s.pc.toNat + 2)

/-! ## Control transfer (41_control_flow.md) -/

/-- R110: the newest entry becomes `pc`; with none, StackUnderflow and nothing else. That an entry above 4094 makes the next
step's fetch fault is R110's, that the error is AddressOutOfRange and the address it names are R99 and R56 with decision
D9 (log 17). -/
def Obligations.ReturnPopsOrUnderflows : Prop :=
  decode 0x00EE#16 = .instr .ret ∧
  ∀ s : State,
    (∀ a rest, s.stack = a :: rest →
      ∃ t, exec .ret s = .next t ∧ t.pc = a ∧ t.stack = rest ∧ Frame { pc := true, stack := true } s t ∧
        (s.halted = none → 4094 < a.toNat →
          ∃ u, step t = .next u ∧ u.halted = some (.addressOutOfRange (max a.toNat 0x1000)))) ∧
    (s.stack = [] →
      ∃ t, exec .ret s = .next t ∧ t.halted = some .stackUnderflow ∧ Frame { halted := true } s t)

/-- R111 with decision D32: for each of its 4094 words the instruction changes nothing. -/
def Obligations.SysCallDoesNothing : Prop :=
  ∀ nnn : BitVec 12, nnn ≠ 0x0E0#12 → nnn ≠ 0x0EE#12 →
    decode (0x0#4 ++ nnn) = .instr (.sysCall nnn) ∧
    ∀ s : State, ∃ t, exec (.sysCall nnn) s = .next t ∧ Frame {} s t

/-- R112: `pc` is overwritten; the target 0xFFF is accepted and the next step's fetch is fatal. -/
def Obligations.JumpSetsPc : Prop :=
  ∀ nnn : BitVec 12, decode (0x1#4 ++ nnn) = .instr (.jump nnn) ∧
    ∀ s : State, ∃ t, exec (.jump nnn) s = .next t ∧ t.pc.toNat = nnn.toNat ∧ Frame { pc := true } s t ∧
      (nnn = 0xFFF#12 → s.halted = none → ∃ u, step t = .next u ∧ u.halted = some (.addressOutOfRange 0x1000))

/-- R113 with decision D7: the advanced `pc` is pushed; a full finite stack is a fatal error. -/
def Obligations.CallPushesAndJumpsOrOverflows : Prop :=
  ∀ nnn : BitVec 12, decode (0x2#4 ++ nnn) = .instr (.call nnn) ∧
    ∀ s : State,
      ((∀ depth, s.cfg.stackDepth = some depth → s.stack.length < depth) →
        ∃ t, exec (.call nnn) s = .next t ∧ t.stack = s.pc :: s.stack ∧ t.pc.toNat = nnn.toNat ∧
          Frame { pc := true, stack := true } s t) ∧
      (∀ depth, s.cfg.stackDepth = some depth → depth ≤ s.stack.length →
        ∃ t, exec (.call nnn) s = .next t ∧ t.halted = some .stackOverflow ∧ Frame { halted := true } s t)

/-- R114 with decision D29: the sum of V0 and `nnn`, not reduced. -/
def Obligations.JumpOffsetAddsVZero : Prop :=
  ∀ nnn : BitVec 12, decode (0xB#4 ++ nnn) = .instr (.jumpOffset nnn) ∧
    ∀ s : State, ∃ t, exec (.jumpOffset nnn) s = .next t ∧ t.pc.toNat = (s.getV 0).toNat + nnn.toNat ∧
      Frame { pc := true } s t

/-! ## Skips (42_skips.md) -/

/-- R120 and R121. -/
def Obligations.SkipsOnAnImmediate : Prop :=
  ∀ (x : RegIx) (nn : Byte),
    decode (0x3#4 ++ nibbleOf x ++ nn) = .instr (.skipEqImm x nn) ∧
    decode (0x4#4 ++ nibbleOf x ++ nn) = .instr (.skipNeqImm x nn) ∧
    ∀ s : State,
      (∃ t, exec (.skipEqImm x nn) s = .next t ∧ t.pc = (if s.getV x = nn then s.pc + 2#16 else s.pc) ∧
        Frame { pc := true } s t) ∧
      (∃ t, exec (.skipNeqImm x nn) s = .next t ∧ t.pc = (if s.getV x ≠ nn then s.pc + 2#16 else s.pc) ∧
        Frame { pc := true } s t)

/-- R122 and R123; the other fifteen function codes are illegal. -/
def Obligations.SkipsOnARegister : Prop :=
  ∀ x y : RegIx,
    decode (0x5#4 ++ nibbleOf x ++ (nibbleOf y ++ 0x0#4)) = .instr (.skipEqReg x y) ∧
    decode (0x9#4 ++ nibbleOf x ++ (nibbleOf y ++ 0x0#4)) = .instr (.skipNeqReg x y) ∧
    (∀ n : BitVec 4, n ≠ 0x0#4 →
      decode (0x5#4 ++ nibbleOf x ++ (nibbleOf y ++ n)) = .decodeError (0x5#4 ++ nibbleOf x ++ (nibbleOf y ++ n)) ∧
      decode (0x9#4 ++ nibbleOf x ++ (nibbleOf y ++ n)) = .decodeError (0x9#4 ++ nibbleOf x ++ (nibbleOf y ++ n))) ∧
    ∀ s : State,
      (∃ t, exec (.skipEqReg x y) s = .next t ∧ t.pc = (if s.getV x = s.getV y then s.pc + 2#16 else s.pc) ∧
        Frame { pc := true } s t) ∧
      (∃ t, exec (.skipNeqReg x y) s = .next t ∧ t.pc = (if s.getV x ≠ s.getV y then s.pc + 2#16 else s.pc) ∧
        Frame { pc := true } s t)

/-! ## Loads and ALU (43_load_alu.md) -/

/-- R130 and R131: VF is no flag here; with x = 15 it is the destination. -/
def Obligations.LoadAndAddAnImmediate : Prop :=
  ∀ (x : RegIx) (nn : Byte),
    decode (0x6#4 ++ nibbleOf x ++ nn) = .instr (.loadImm x nn) ∧
    decode (0x7#4 ++ nibbleOf x ++ nn) = .instr (.addImm x nn) ∧
    ∀ s : State,
      (∃ t, exec (.loadImm x nn) s = .next t ∧ t.getV x = nn ∧ Frame { regs := [x] } s t) ∧
      (∃ t, exec (.addImm x nn) s = .next t ∧ (t.getV x).toNat = ((s.getV x).toNat + nn.toNat) % 256 ∧
        Frame { regs := [x] } s t)

/-- R133. -/
def Obligations.CopyCopies : Prop :=
  ∀ x y : RegIx, decode (0x8#4 ++ nibbleOf x ++ (nibbleOf y ++ 0x0#4)) = .instr (.copy x y) ∧
    ∀ s : State, ∃ t, exec (.copy x y) s = .next t ∧ t.getV x = s.getV y ∧ Frame { regs := [x] } s t

/-- R134, R135, R136 with decision D14: bitwise on all eight bits; VF is not written unless it is the destination. -/
def Obligations.LogicalOperationsWriteNoFlag : Prop :=
  ∀ x y : RegIx,
    decode (0x8#4 ++ nibbleOf x ++ (nibbleOf y ++ 0x1#4)) = .instr (.or x y) ∧
    decode (0x8#4 ++ nibbleOf x ++ (nibbleOf y ++ 0x2#4)) = .instr (.and x y) ∧
    decode (0x8#4 ++ nibbleOf x ++ (nibbleOf y ++ 0x3#4)) = .instr (.xor x y) ∧
    ∀ s : State,
      (∃ t, exec (.or x y) s = .next t ∧ Frame { regs := [x] } s t ∧
        ∀ k, (t.getV x).getLsbD k = ((s.getV x).getLsbD k || (s.getV y).getLsbD k)) ∧
      (∃ t, exec (.and x y) s = .next t ∧ Frame { regs := [x] } s t ∧
        ∀ k, (t.getV x).getLsbD k = ((s.getV x).getLsbD k && (s.getV y).getLsbD k)) ∧
      (∃ t, exec (.xor x y) s = .next t ∧ Frame { regs := [x] } s t ∧
        ∀ k, (t.getV x).getLsbD k = ((s.getV x).getLsbD k != (s.getV y).getLsbD k))

/-- R137 and R132 with decision D11: the sum always; VF is the carry unless it is the destination. -/
def Obligations.AddWritesSumAndCarry : Prop :=
  ∀ x y : RegIx, decode (0x8#4 ++ nibbleOf x ++ (nibbleOf y ++ 0x4#4)) = .instr (.add x y) ∧
    ∀ s : State, ∃ t, exec (.add x y) s = .next t ∧
      (t.getV x).toNat = ((s.getV x).toNat + (s.getV y).toNat) % 256 ∧
      (x ≠ 15 → (t.getV 15).toNat = ((s.getV x).toNat + (s.getV y).toNat) / 256) ∧
      Frame { regs := [x, 15] } s t

/-- R138, R140 and R132 with decisions D11 and D12: the difference always; VF is 1 when it does not borrow. -/
def Obligations.SubtractionsWriteDifferenceAndNotBorrow : Prop :=
  ∀ x y : RegIx,
    decode (0x8#4 ++ nibbleOf x ++ (nibbleOf y ++ 0x5#4)) = .instr (.sub x y) ∧
    decode (0x8#4 ++ nibbleOf x ++ (nibbleOf y ++ 0x7#4)) = .instr (.subn x y) ∧
    ∀ s : State,
      (∃ t, exec (.sub x y) s = .next t ∧
        (t.getV x).toNat = ((s.getV x).toNat + 256 - (s.getV y).toNat) % 256 ∧
        (x ≠ 15 → (t.getV 15).toNat = if (s.getV x).toNat ≥ (s.getV y).toNat then 1 else 0) ∧
        Frame { regs := [x, 15] } s t) ∧
      (∃ t, exec (.subn x y) s = .next t ∧
        (t.getV x).toNat = ((s.getV y).toNat + 256 - (s.getV x).toNat) % 256 ∧
        (x ≠ 15 → (t.getV 15).toNat = if (s.getV y).toNat ≥ (s.getV x).toNat then 1 else 0) ∧
        Frame { regs := [x, 15] } s t)

/-- R139, R141 and R132 with decisions D11 and D13: by one place, `y` ignored; VF is the bit shifted out. -/
def Obligations.ShiftsWriteTheBitShiftedOut : Prop :=
  ∀ x y : RegIx,
    decode (0x8#4 ++ nibbleOf x ++ (nibbleOf y ++ 0x6#4)) = .instr (.shr x y) ∧
    decode (0x8#4 ++ nibbleOf x ++ (nibbleOf y ++ 0xE#4)) = .instr (.shl x y) ∧
    ∀ s : State,
      (∃ t, exec (.shr x y) s = .next t ∧ (t.getV x).toNat = (s.getV x).toNat / 2 ∧
        (x ≠ 15 → (t.getV 15).toNat = (s.getV x).toNat % 2) ∧ Frame { regs := [x, 15] } s t) ∧
      (∃ t, exec (.shl x y) s = .next t ∧ (t.getV x).toNat = (2 * (s.getV x).toNat) % 256 ∧
        (x ≠ 15 → (t.getV 15).toNat = (s.getV x).toNat / 128) ∧ Frame { regs := [x, 15] } s t)

/-- R142 with decision D18, for every value of the step's input `rnd`. -/
def Obligations.RandomMasksTheInputByte : Prop :=
  ∀ (x : RegIx) (nn : Byte), decode (0xC#4 ++ nibbleOf x ++ nn) = .instr (.random x nn) ∧
    ∀ (s : State) (b : Byte), s.input.rnd = b → ∃ t, exec (.random x nn) s = .next t ∧ Frame { regs := [x] } s t ∧
      ∀ k, (t.getV x).getLsbD k = (b.getLsbD k && nn.getLsbD k)

/-! ## Index and memory (44_index_memory.md) -/

/-- R150. -/
def Obligations.LoadIndexSetsI : Prop :=
  ∀ nnn : BitVec 12, decode (0xA#4 ++ nnn) = .instr (.loadIndex nnn) ∧
    ∀ s : State, ∃ t, exec (.loadIndex nnn) s = .next t ∧ t.i.toNat = nnn.toNat ∧ Frame { index := true } s t

/-- R151 with decisions D10 and D14, R152 with decision D26: VF is not written. -/
def Obligations.IndexArithmetic : Prop :=
  ∀ x : RegIx,
    decode (0xF#4 ++ nibbleOf x ++ 0x1E#8) = .instr (.addToIndex x) ∧
    decode (0xF#4 ++ nibbleOf x ++ 0x29#8) = .instr (.loadFontAddr x) ∧
    ∀ s : State,
      (∃ t, exec (.addToIndex x) s = .next t ∧ t.i.toNat = (s.i.toNat + (s.getV x).toNat) % 65536 ∧
        Frame { index := true } s t) ∧
      (∃ t, exec (.loadFontAddr x) s = .next t ∧
        t.i.toNat = ((s.getV x).toNat % s.cfg.fontDigitModulus) * 5 ∧ Frame { index := true } s t)

/-- R153 with decisions D8 and D21 (digit order: general knowledge, GK5): three digits at I, or nothing. -/
def Obligations.StoreBCDStoresThreeDigits : Prop :=
  ∀ x : RegIx, decode (0xF#4 ++ nibbleOf x ++ 0x33#8) = .instr (.storeBCD x) ∧
    ∀ s : State,
      (s.indexAddr + 2 ≤ 0xFFF → ∃ t, exec (.storeBCD x) s = .next t ∧
        (t.readByte s.indexAddr).toNat = (s.getV x).toNat / 100 ∧
        (t.readByte (s.indexAddr + 1)).toNat = ((s.getV x).toNat / 10) % 10 ∧
        (t.readByte (s.indexAddr + 2)).toNat = (s.getV x).toNat % 10 ∧
        Frame { memLo := s.indexAddr, memLen := 3 } s t) ∧
      (0xFFF < s.indexAddr + 2 → ∃ t, exec (.storeBCD x) s = .next t ∧
        t.halted = some (.addressOutOfRange (max s.i.toNat 0x1000)) ∧ Frame { halted := true } s t)

/-- R154 with decisions D8 and D23: V[0] to V[x] at I, or nothing; I is unchanged. -/
def Obligations.RegDumpStoresTheRange : Prop :=
  ∀ x : RegIx, decode (0xF#4 ++ nibbleOf x ++ 0x55#8) = .instr (.regDump x) ∧
    ∀ s : State,
      (s.indexAddr + x.val ≤ 0xFFF → ∃ t, exec (.regDump x) s = .next t ∧
        (∀ k : RegIx, k.val ≤ x.val → t.readByte (s.indexAddr + k.val) = s.getV k) ∧
        Frame { memLo := s.indexAddr, memLen := x.val + 1 } s t) ∧
      (0xFFF < s.indexAddr + x.val → ∃ t, exec (.regDump x) s = .next t ∧
        t.halted = some (.addressOutOfRange (max s.i.toNat 0x1000)) ∧ Frame { halted := true } s t)

/-- R155 with decisions D8 and D23: V[0] to V[x] from I, or nothing; the other registers and I are unchanged. -/
def Obligations.RegLoadLoadsTheRange : Prop :=
  ∀ x : RegIx, decode (0xF#4 ++ nibbleOf x ++ 0x65#8) = .instr (.regLoad x) ∧
    ∀ s : State,
      (s.indexAddr + x.val ≤ 0xFFF → ∃ t, exec (.regLoad x) s = .next t ∧
        (∀ k : RegIx, k.val ≤ x.val → t.getV k = s.readByte (s.indexAddr + k.val)) ∧
        (∀ k : RegIx, x.val < k.val → t.getV k = s.getV k) ∧
        Frame { regs := [0, 1, 2, 3, 4, 5, 6, 7, 8, 9, 10, 11, 12, 13, 14, 15] } s t) ∧
      (0xFFF < s.indexAddr + x.val → ∃ t, exec (.regLoad x) s = .next t ∧
        t.halted = some (.addressOutOfRange (max s.i.toNat 0x1000)) ∧ Frame { halted := true } s t)

/-- R62 (derived there): the word a block store writes over the next instruction is the one fetched. -/
def Obligations.AStoreIsSeenByTheNextFetch : Prop :=
  ∀ (x : RegIx) (s : State), 1 ≤ x.val → s.indexAddr + x.val ≤ 0xFFF → s.i = s.pc →
    ∃ t, exec (.regDump x) s = .next t ∧ fetchWord t = s.getV 0 ++ s.getV 1

/-- The memory's canonical form determines it: memories that read alike are equal data (log 16). -/
def Obligations.CanonicalMemoriesThatReadAlikeAreEqual : Prop :=
  ∀ (base : Nat → Byte) (m n : Memory), Memory.wf base m → Memory.wf base n →
    (∀ a, Memory.read base m a = Memory.read base n a) → m = n

/-! ## Display (45_display.md) -/

/-- R160: every pixel off, VF not written, and the step reports a pending draw. -/
def Obligations.ClearBlanksTheFramebuffer : Prop :=
  decode 0x00E0#16 = .instr .clear ∧
  ∀ s : State,
    (∃ t, exec .clear s = .next t ∧ (∀ (py : Fin 32) (px : Fin 64), t.fb[py][px] = false) ∧ Frame { fb := true } s t) ∧
    (s.halted = none → ∃ t soundActive, runWord 0x00E0#16 s = .next t ∧ t.result = some (.ok true soundActive))

/-- R161 with decisions D8, D15 and D16 (VF reset and bit order: general knowledge, GK2, GK3): each pixel is inverted
exactly where the sprite has a 1 bit over it, and VF tells whether one of those was on. -/
def Obligations.DrawInvertsThePixelsUnderTheSprite : Prop :=
  ∀ (x y : RegIx) (n : Fin 16),
    decode (0xD#4 ++ nibbleOf x ++ (nibbleOf y ++ nibbleOf n)) = .instr (.draw x y n) ∧
    ∀ s : State, (n.val = 0 ∨ s.indexAddr + n.val - 1 ≤ 0xFFF) →
      ∃ t, exec (.draw x y n) s = .next t ∧
        (∀ (py : Fin 32) (px : Fin 64), SpriteOn s x y n.val px.val py.val → t.fb[py][px] = !s.fb[py][px]) ∧
        (∀ (py : Fin 32) (px : Fin 64), ¬SpriteOn s x y n.val px.val py.val → t.fb[py][px] = s.fb[py][px]) ∧
        ((∃ (py : Fin 32) (px : Fin 64), SpriteOn s x y n.val px.val py.val ∧ s.fb[py][px] = true) →
          t.getV 15 = 0x01#8) ∧
        ((∀ (py : Fin 32) (px : Fin 64), SpriteOn s x y n.val px.val py.val → s.fb[py][px] = false) →
          t.getV 15 = 0x00#8) ∧
        Frame { regs := [15], fb := true } s t

/-- R161 with decision D8: a sprite whose last byte lies above 0xFFF is a fatal error and nothing else changes. -/
def Obligations.DrawBeyondMemoryIsFatal : Prop :=
  ∀ (x y : RegIx) (n : Fin 16) (s : State), 1 ≤ n.val → 0xFFF < s.indexAddr + n.val - 1 →
    ∃ t, exec (.draw x y n) s = .next t ∧ t.halted = some (.addressOutOfRange (max s.i.toNat 0x1000)) ∧
      Frame { halted := true } s t

/-- R162 (a) (derived there): a second Draw of the same sprite at the same place restores the framebuffer; it collides
exactly when the first Draw turned a pixel on. That VF is reset and the operands latched before the blit is decision D15,
and the columns that `SpriteOn` gives a byte's bits are decision D16 (general knowledge, GK3 and GK2, log 20). -/
def Obligations.DrawingTwiceRestoresTheFramebuffer : Prop :=
  ∀ (x y : RegIx) (n : Fin 16) (s : State), (n.val = 0 ∨ s.indexAddr + n.val - 1 ≤ 0xFFF) →
    ∃ t, exec (.draw x y n) s = .next t ∧
      ∀ (s' : State) (x' y' : RegIx), s'.fb = t.fb → s'.getV x' = s.getV x → s'.getV y' = s.getV y →
        (n.val = 0 ∨ s'.indexAddr + n.val - 1 ≤ 0xFFF) →
        (∀ r, r < n.val → s'.readByte (s'.indexAddr + r) = s.readByte (s.indexAddr + r)) →
        ∃ t', exec (.draw x' y' n) s' = .next t' ∧ t'.fb = s.fb ∧
          (t'.getV 15 = 0x01#8 ↔
            ∃ (py : Fin 32) (px : Fin 64), SpriteOn s x y n.val px.val py.val ∧ s.fb[py][px] = false)

/-! ## Keypad and timer instructions (46_keypad_timers.md) -/

/-- R170 and R171: level tests on the current snapshot; a code above 15 counts as not pressed. -/
def Obligations.SkipsOnAKey : Prop :=
  ∀ x : RegIx,
    decode (0xE#4 ++ nibbleOf x ++ 0x9E#8) = .instr (.skipKeyPressed x) ∧
    decode (0xE#4 ++ nibbleOf x ++ 0xA1#8) = .instr (.skipKeyNotPressed x) ∧
    ∀ s : State,
      (∃ t, exec (.skipKeyPressed x) s = .next t ∧ Frame { pc := true } s t ∧
        t.pc = if (s.getV x).toNat ≤ 15 ∧ s.keysCur.getLsbD (s.getV x).toNat = true then s.pc + 2#16 else s.pc) ∧
      (∃ t, exec (.skipKeyNotPressed x) s = .next t ∧ Frame { pc := true } s t ∧
        t.pc = if 15 < (s.getV x).toNat ∨ s.keysCur.getLsbD (s.getV x).toNat = false then s.pc + 2#16 else s.pc)

/-- R173 with decision D17, for every draw: a key pressed now and not one step ago is stored, or `pc` goes back. -/
def Obligations.WaitKeyTakesANewKeyOrRepeats : Prop :=
  ∀ x : RegIx, decode (0xF#4 ++ nibbleOf x ++ 0x0A#8) = .instr (.waitKey x) ∧
    ∀ s : State,
      ((∃ k, k < 16 ∧ s.keysCur.getLsbD k = true ∧ s.keysPrev.getLsbD k = false) →
        ∃ t k, exec (.waitKey x) s = .next t ∧ k < 16 ∧ s.keysCur.getLsbD k = true ∧ s.keysPrev.getLsbD k = false ∧
          (t.getV x).toNat = k ∧ Frame { regs := [x] } s t) ∧
      ((∀ k, k < 16 → s.keysCur.getLsbD k = true → s.keysPrev.getLsbD k = true) →
        ∃ t, exec (.waitKey x) s = .next t ∧ t.pc = s.pc - 2#16 ∧ Frame { pc := true } s t)

/-- R173 with decision D17: KEY_CHOICE is unconstrained, each new key is taken for some draw. -/
def Obligations.WaitKeyMayTakeAnyNewKey : Prop :=
  ∀ (x : RegIx) (s : State) (k : Nat), k < 16 → s.keysCur.getLsbD k = true → s.keysPrev.getLsbD k = false →
    ∃ pick t, exec (.waitKey x) { s with input := { s.input with pick := pick } } = .next t ∧ (t.getV x).toNat = k

/-- R174, R175, R176 with decision D22 (which does what: general knowledge, GK4). -/
def Obligations.TimerInstructions : Prop :=
  ∀ x : RegIx,
    decode (0xF#4 ++ nibbleOf x ++ 0x07#8) = .instr (.getDelay x) ∧
    decode (0xF#4 ++ nibbleOf x ++ 0x15#8) = .instr (.setDelay x) ∧
    decode (0xF#4 ++ nibbleOf x ++ 0x18#8) = .instr (.setSound x) ∧
    ∀ s : State,
      (∃ t, exec (.getDelay x) s = .next t ∧ t.getV x = s.dt ∧ Frame { regs := [x] } s t) ∧
      (∃ t, exec (.setDelay x) s = .next t ∧ t.dt = s.getV x ∧ Frame { dt := true } s t) ∧
      (∃ t, exec (.setSound x) s = .next t ∧ t.st = s.getV x ∧ Frame { st := true } s t)

/-! ## The whole machine -/

/-- 10_state.md R22, R26 to R30, R37, 20_memory.md R52: which instructions write each storage; nothing writes the
parameters (kept in State: log 1), the snapshots or `last_tick` in the execute phase. That SetDelay writes DT and SetSound
ST is decision D22 (general knowledge, GK4, log 22 PRESUMED); that RegDump and RegLoad leave I is decision D23 (log 23);
that the stack is storage of its own is decision D33 (log 15). -/
def Obligations.WhoWritesEachStorage : Prop :=
  ∀ (i : Instr) (s t : State), exec i s = .next t →
    (t.fb ≠ s.fb → i = .clear ∨ ∃ x y n, i = .draw x y n) ∧
    (t.stack ≠ s.stack → i = .ret ∨ ∃ nnn, i = .call nnn) ∧
    (t.mem ≠ s.mem → ∃ x, i = .storeBCD x ∨ i = .regDump x) ∧
    (t.i ≠ s.i → (∃ nnn, i = .loadIndex nnn) ∨ ∃ x, i = .addToIndex x ∨ i = .loadFontAddr x) ∧
    (t.dt ≠ s.dt → ∃ x, i = .setDelay x) ∧ (t.st ≠ s.st → ∃ x, i = .setSound x) ∧
    t.keysCur = s.keysCur ∧ t.keysPrev = s.keysPrev ∧ t.lastTick = s.lastTick ∧ t.cfg = s.cfg

/-- 10_state.md R20, R21, R34: a register changes only as the instruction's destination, and VF also as the flag. That Or,
And, Xor and AddToIndex leave VF alone is decision D14 (log 19); the flag of the other instructions rests on decisions D11
and D12 (log 18) and, for Draw, D15 (log 20); that Fx07 has V[x] as its destination is decision D22 (general knowledge,
GK4, log 22 PRESUMED). -/
def Obligations.WhoWritesEachRegister : Prop :=
  ∀ (i : Instr) (s t : State) (r : RegIx), exec i s = .next t → t.getV r ≠ s.getV r →
    i.destination r = true ∨ (r = 15 ∧ i.writesFlag = true)

/-- 10_state.md R27, R28, R30: no instruction reads `last_tick` or ST, and none but WaitKey reads `keys_prev`: two runs
of the execute phase that differ in these alone end in states that differ in these alone. That the timer Fx07 reads is DT,
and that Fx18 is the instruction that writes ST, is decision D22 (general knowledge, GK4, log 22 PRESUMED). -/
def Obligations.HiddenStateIsNotRead : Prop :=
  ∀ (i : Instr) (s t : State) (k : Nat) (b : Byte) (keys : Word16), exec i s = .next t →
    exec i { s with lastTick := k } = .next { t with lastTick := k } ∧
    ((∀ x, i ≠ .setSound x) → exec i { s with st := b } = .next { t with st := b }) ∧
    ((∀ x, i ≠ .waitKey x) → exec i { s with keysPrev := keys } = .next { t with keysPrev := keys })

/-- 10_state.md R39 (b), (c), (d), the canonical form of the memory and the legality of a recorded error: every step
keeps them, from every state that has them. -/
def Obligations.EveryStepKeepsTheInvariant : Prop :=
  ∀ s t : State, s.Inv → step s = .next t → t.Inv

/-- The invariant holds after `Reset(t0)`, for every `t0` and all parameters, and so at `State.reset`. -/
def Obligations.TheInvariantHoldsAfterReset : Prop :=
  State.reset.Inv ∧ ∀ (t0 : Nat) (cfg : Config.Params), (State.resetAt t0 cfg).Inv

/-! ## Reset and load (70_reset_and_hazards.md) -/

/-- R210 and the table of 10_state.md R38; all but `pc` and the font region are the spec's decision D5 (log 5). -/
def Obligations.ResetLeavesTheTableOfValues : Prop :=
  ∀ (t0 : Nat) (s : State),
    let t := s.hostReset t0
    t.pc = 0x200#16 ∧ (∀ k : Fin 80, t.readByte k.val = s.cfg.font[k]) ∧ (∀ a, 80 ≤ a → t.readByte a = 0x00#8) ∧
    (∀ r, t.getV r = 0x00#8) ∧ t.i = 0x0000#16 ∧ t.dt = 0x00#8 ∧ t.st = 0x00#8 ∧ t.stack = [] ∧
    (∀ (py : Fin 32) (px : Fin 64), t.fb[py][px] = false) ∧ t.keysCur = 0x0000#16 ∧ t.keysPrev = 0x0000#16 ∧
    t.lastTick = t0 ∧ t.halted = none ∧ t.cfg = s.cfg

/-- R212 with decision D24: a program of at most 3584 bytes is copied to 0x200 and nothing else changes; a longer one, or
a load at another time, has no behaviour and the model refuses the launch. -/
def Obligations.LoadCopiesTheProgram : Prop :=
  ∀ (bytes : List Byte) (s : State),
    (s.launch = .constructed → bytes.length ≤ 3584 →
      ∃ t, s.hostLoad bytes = .next t ∧
        (∀ (k : Nat) (h : k < bytes.length), t.readByte (0x200 + k) = bytes[k]) ∧
        Frame { launch := true, memLo := 0x200, memLen := bytes.length } s t) ∧
    (s.launch ≠ .constructed ∨ 3584 < bytes.length → s.hostLoad bytes = .refused .loadOutsideDomain)

/-- R211 and R99 (derived there): "Loading a program and stepping once executes the instruction at address 0x200
exactly, with PC at 0x202 before instruction effects apply". That the stack is empty after reset is decision D5 (log 5,
DESIGN CHOICE); that the load succeeds for a program of at most 3584 bytes is R212 with decision D24 (log 13). -/
def Obligations.TheFirstStepRunsTheLoadedInstruction : Prop :=
  ∀ (t0 : Nat) (cfg : Config.Params) (hi lo : Byte) (rest : List Byte) (i : Instr),
    rest.length ≤ 3582 → decode (hi ++ lo) = .instr i →
    ∃ t, (State.resetAt t0 cfg).hostLoad (hi :: lo :: rest) = .next t ∧
      let u := advancePc (inputPhase (timerPhase t.takeInput))
      step t = reportOutcome (requestsRedraw i) (exec i u) ∧ u.pc = 0x202#16 ∧ u.stack = [] ∧ u.mem = t.mem

/-- R211 (derived there): with nothing loaded, 1792 steps run SysCalls and the 1793rd raises AddressOutOfRange(0x1000),
after every `Reset(t0)`, for all parameters and whatever the host supplies in `calls` or after them. That memory reads as
zero and the machine runs after reset is decision D5 (log 5), that 0x0000 is a SysCall decision D32 (log 25), the error of
the fetch decision D9 (log 17), and that `pc` stays at 0x1000 decision D19 (log 10). -/
def Obligations.AnUnloadedMachineRunsOffTheEnd : Prop :=
  ∀ (t0 : Nat) (m : State) (calls : List Config.StepInput),
    let s : State := { m.hostReset t0 with inputs := calls }
    (∃ t, Host.Core.run core 1792 s = .next t ∧ t.halted = none ∧ t.pc = 0x1000#16) ∧
    ∃ t, Host.Core.run core 1793 s = .next t ∧ t.halted = some (.addressOutOfRange 0x1000) ∧ t.pc = 0x1000#16
end

