-- ==== Sys2Proof/Laws/Decode.lean ====
section
/-! SUPPORT. The fields of an encoded word, and a word put together from its fields. -/

namespace Sys2Proof

theorem encNNN_bit (n : BitVec 4) (a : BitVec 12) (k : Nat) :
    (encNNN n a).getLsbD k = if k < 12 then a.getLsbD k else n.getLsbD (k - 12) :=
  (BitVec.getLsbD_append).trans (by split <;> simp [*])

theorem encXNN_bit (n : BitVec 4) (x : RegIx) (b : Byte) (k : Nat) :
    (encXNN n x b).getLsbD k =
      if k < 8 then b.getLsbD k else if k < 12 then (nibbleOf x).getLsbD (k - 8) else n.getLsbD (k - 12) := by
  refine (BitVec.getLsbD_append).trans ?_
  by_cases h : k < 8
  · simp [h]
  · have e : ((n ++ nibbleOf x : BitVec (4 + 4))).getLsbD (k - 8) =
        if k - 8 < 4 then (nibbleOf x).getLsbD (k - 8) else n.getLsbD (k - 8 - 4) :=
      (BitVec.getLsbD_append).trans (by split <;> simp [*])
    have h1 : (k - 8 < 4) ↔ k < 12 := by omega
    have h2 : k - 8 - 4 = k - 12 := by omega
    simp only [h, if_false]
    rw [e, h2]
    simp only [h1]

theorem encXYN_bit (n : BitVec 4) (x y : RegIx) (f : BitVec 4) (k : Nat) :
    (encXYN n x y f).getLsbD k =
      if k < 4 then f.getLsbD k else if k < 8 then (nibbleOf y).getLsbD (k - 4)
      else if k < 12 then (nibbleOf x).getLsbD (k - 8) else n.getLsbD (k - 12) := by
  refine (encXNN_bit n x (nibbleOf y ++ f) k).trans ?_
  have e : ((nibbleOf y ++ f : BitVec (4 + 4))).getLsbD k =
      if k < 4 then f.getLsbD k else (nibbleOf y).getLsbD (k - 4) :=
    (BitVec.getLsbD_append).trans (by split <;> simp [*])
  rw [e]
  by_cases h4 : k < 4
  · have : k < 8 := by omega
    simp [h4, this]
  · simp [h4]

theorem extract_eq {w : Word16} {lo len : Nat} {v : BitVec len}
    (h : ∀ k, k < len → w.getLsbD (lo + k) = v.getLsbD k) : w.extractLsb' lo len = v := by
  apply BitVec.eq_of_getLsbD_eq
  intro k hk
  simp only [BitVec.getLsbD_extractLsb', hk, decide_true, Bool.true_and]
  exact h k hk

/-! The fields of each format. -/

@[simp] theorem fieldN1_encNNN (n : BitVec 4) (a : BitVec 12) : fieldN1 (encNNN n a) = n :=
  extract_eq (fun k hk => by rw [encNNN_bit, if_neg (by omega)]; congr 1; omega)
@[simp] theorem fieldNNN_encNNN (n : BitVec 4) (a : BitVec 12) : fieldNNN (encNNN n a) = a :=
  extract_eq (fun k hk => by rw [encNNN_bit, if_pos (by omega), Nat.zero_add])
@[simp] theorem fieldN1_encXNN (n : BitVec 4) (x : RegIx) (b : Byte) : fieldN1 (encXNN n x b) = n :=
  extract_eq (fun k hk => by rw [encXNN_bit, if_neg (by omega), if_neg (by omega)]; congr 1; omega)
@[simp] theorem fieldX_encXNN (n : BitVec 4) (x : RegIx) (b : Byte) : fieldX (encXNN n x b) = x :=
  congrArg BitVec.toFin (extract_eq (v := nibbleOf x) (fun k hk => by
    rw [encXNN_bit, if_neg (by omega), if_pos (by omega)]; congr 1; omega))
@[simp] theorem fieldNN_encXNN (n : BitVec 4) (x : RegIx) (b : Byte) : fieldNN (encXNN n x b) = b :=
  extract_eq (fun k hk => by rw [encXNN_bit, if_pos (by omega), Nat.zero_add])
@[simp] theorem fieldN1_encXYN (n : BitVec 4) (x y : RegIx) (f : BitVec 4) : fieldN1 (encXYN n x y f) = n :=
  extract_eq (fun k hk => by
    rw [encXYN_bit, if_neg (by omega), if_neg (by omega), if_neg (by omega)]; congr 1; omega)
@[simp] theorem fieldX_encXYN (n : BitVec 4) (x y : RegIx) (f : BitVec 4) : fieldX (encXYN n x y f) = x :=
  congrArg BitVec.toFin (extract_eq (v := nibbleOf x) (fun k hk => by
    rw [encXYN_bit, if_neg (by omega), if_neg (by omega), if_pos (by omega)]; congr 1; omega))
@[simp] theorem fieldY_encXYN (n : BitVec 4) (x y : RegIx) (f : BitVec 4) : fieldY (encXYN n x y f) = y :=
  congrArg BitVec.toFin (extract_eq (v := nibbleOf y) (fun k hk => by
    rw [encXYN_bit, if_neg (by omega), if_pos (by omega)]; congr 1; omega))
@[simp] theorem fieldN4_encXYN (n : BitVec 4) (x y : RegIx) (f : BitVec 4) : fieldN4 (encXYN n x y f) = f :=
  extract_eq (fun k hk => by rw [encXYN_bit, if_pos (by omega), Nat.zero_add])
@[simp] theorem fieldN_encXYN (n : BitVec 4) (x y : RegIx) (c : Fin 16) : fieldN (encXYN n x y (nibbleOf c)) = c :=
  congrArg BitVec.toFin (fieldN4_encXYN n x y (nibbleOf c))

/-! A word is put together from its fields. -/

theorem encNNN_fields (w : Word16) : encNNN (fieldN1 w) (fieldNNN w) = w := by
  apply BitVec.eq_of_getLsbD_eq
  intro k hk
  simp only [encNNN_bit, fieldN1, fieldNNN, BitVec.getLsbD_extractLsb']
  split
  · rename_i h; simp [h]
  · rename_i h
    have h1 : k - 12 < 4 := by omega
    have h2 : 12 + (k - 12) = k := by omega
    simp [h1, h2]

theorem nibbleOf_fieldX (w : Word16) : nibbleOf (fieldX w) = w.extractLsb' 8 4 := rfl
theorem nibbleOf_fieldY (w : Word16) : nibbleOf (fieldY w) = w.extractLsb' 4 4 := rfl
theorem nibbleOf_fieldN (w : Word16) : nibbleOf (fieldN w) = fieldN4 w := rfl

theorem encXNN_fields (w : Word16) : encXNN (fieldN1 w) (fieldX w) (fieldNN w) = w := by
  apply BitVec.eq_of_getLsbD_eq
  intro k hk
  simp only [encXNN_bit, nibbleOf_fieldX, fieldN1, fieldNN, BitVec.getLsbD_extractLsb']
  split
  · rename_i h; simp [h]
  · split
    · have h1 : k - 8 < 4 := by omega
      have h2 : 8 + (k - 8) = k := by omega
      simp [h1, h2]
    · have h1 : k - 12 < 4 := by omega
      have h2 : 12 + (k - 12) = k := by omega
      simp [h1, h2]

theorem encXYN_fields (w : Word16) : encXYN (fieldN1 w) (fieldX w) (fieldY w) (fieldN4 w) = w := by
  apply BitVec.eq_of_getLsbD_eq
  intro k hk
  simp only [encXYN_bit, nibbleOf_fieldX, nibbleOf_fieldY, fieldN1, fieldN4, BitVec.getLsbD_extractLsb']
  split
  · rename_i h; simp [h]
  · split
    · have h1 : k - 4 < 4 := by omega
      have h2 : 4 + (k - 4) = k := by omega
      simp [h1, h2]
    · split
      · have h1 : k - 8 < 4 := by omega
        have h2 : 8 + (k - 8) = k := by omega
        simp [h1, h2]
      · have h1 : k - 12 < 4 := by omega
        have h2 : 12 + (k - 12) = k := by omega
        simp [h1, h2]

end Sys2Proof
end

