-- ==== Sys2Proof/Laws/State.lean ====
section
/-! SUPPORT. One lemma per field per update of the state, so that no later proof unfolds a record update. -/

namespace Sys2Proof.Machine

/-! setV -/

@[simp] theorem State.setV_v (s : State) (r : RegIx) (b : Byte) : (s.setV r b).v = s.v.set r b := rfl
@[simp] theorem State.setV_i (s : State) (r : RegIx) (b : Byte) : (s.setV r b).i = s.i := rfl
@[simp] theorem State.setV_pc (s : State) (r : RegIx) (b : Byte) : (s.setV r b).pc = s.pc := rfl
@[simp] theorem State.setV_stack (s : State) (r : RegIx) (b : Byte) : (s.setV r b).stack = s.stack := rfl
@[simp] theorem State.setV_dt (s : State) (r : RegIx) (b : Byte) : (s.setV r b).dt = s.dt := rfl
@[simp] theorem State.setV_st (s : State) (r : RegIx) (b : Byte) : (s.setV r b).st = s.st := rfl
@[simp] theorem State.setV_lastTick (s : State) (r : RegIx) (b : Byte) : (s.setV r b).lastTick = s.lastTick := rfl
@[simp] theorem State.setV_fb (s : State) (r : RegIx) (b : Byte) : (s.setV r b).fb = s.fb := rfl
@[simp] theorem State.setV_keysCur (s : State) (r : RegIx) (b : Byte) : (s.setV r b).keysCur = s.keysCur := rfl
@[simp] theorem State.setV_keysPrev (s : State) (r : RegIx) (b : Byte) : (s.setV r b).keysPrev = s.keysPrev := rfl
@[simp] theorem State.setV_halted (s : State) (r : RegIx) (b : Byte) : (s.setV r b).halted = s.halted := rfl
@[simp] theorem State.setV_mem (s : State) (r : RegIx) (b : Byte) : (s.setV r b).mem = s.mem := rfl
@[simp] theorem State.setV_result (s : State) (r : RegIx) (b : Byte) : (s.setV r b).result = s.result := rfl
@[simp] theorem State.setV_cfg (s : State) (r : RegIx) (b : Byte) : (s.setV r b).cfg = s.cfg := rfl
@[simp] theorem State.setV_inputs (s : State) (r : RegIx) (b : Byte) : (s.setV r b).inputs = s.inputs := rfl
@[simp] theorem State.setV_inputCount (s : State) (r : RegIx) (b : Byte) : (s.setV r b).inputCount = s.inputCount := rfl
@[simp] theorem State.setV_input (s : State) (r : RegIx) (b : Byte) : (s.setV r b).input = s.input := rfl
@[simp] theorem State.setV_launch (s : State) (r : RegIx) (b : Byte) : (s.setV r b).launch = s.launch := rfl

/-! setI -/

@[simp] theorem State.setI_v (s : State) (a : Word16) : (s.setI a).v = s.v := rfl
@[simp] theorem State.setI_i (s : State) (a : Word16) : (s.setI a).i = a := rfl
@[simp] theorem State.setI_pc (s : State) (a : Word16) : (s.setI a).pc = s.pc := rfl
@[simp] theorem State.setI_stack (s : State) (a : Word16) : (s.setI a).stack = s.stack := rfl
@[simp] theorem State.setI_dt (s : State) (a : Word16) : (s.setI a).dt = s.dt := rfl
@[simp] theorem State.setI_st (s : State) (a : Word16) : (s.setI a).st = s.st := rfl
@[simp] theorem State.setI_lastTick (s : State) (a : Word16) : (s.setI a).lastTick = s.lastTick := rfl
@[simp] theorem State.setI_fb (s : State) (a : Word16) : (s.setI a).fb = s.fb := rfl
@[simp] theorem State.setI_keysCur (s : State) (a : Word16) : (s.setI a).keysCur = s.keysCur := rfl
@[simp] theorem State.setI_keysPrev (s : State) (a : Word16) : (s.setI a).keysPrev = s.keysPrev := rfl
@[simp] theorem State.setI_halted (s : State) (a : Word16) : (s.setI a).halted = s.halted := rfl
@[simp] theorem State.setI_mem (s : State) (a : Word16) : (s.setI a).mem = s.mem := rfl
@[simp] theorem State.setI_result (s : State) (a : Word16) : (s.setI a).result = s.result := rfl
@[simp] theorem State.setI_cfg (s : State) (a : Word16) : (s.setI a).cfg = s.cfg := rfl
@[simp] theorem State.setI_inputs (s : State) (a : Word16) : (s.setI a).inputs = s.inputs := rfl
@[simp] theorem State.setI_inputCount (s : State) (a : Word16) : (s.setI a).inputCount = s.inputCount := rfl
@[simp] theorem State.setI_input (s : State) (a : Word16) : (s.setI a).input = s.input := rfl
@[simp] theorem State.setI_launch (s : State) (a : Word16) : (s.setI a).launch = s.launch := rfl

/-! setPc -/

@[simp] theorem State.setPc_v (s : State) (a : Word16) : (s.setPc a).v = s.v := rfl
@[simp] theorem State.setPc_i (s : State) (a : Word16) : (s.setPc a).i = s.i := rfl
@[simp] theorem State.setPc_pc (s : State) (a : Word16) : (s.setPc a).pc = a := rfl
@[simp] theorem State.setPc_stack (s : State) (a : Word16) : (s.setPc a).stack = s.stack := rfl
@[simp] theorem State.setPc_dt (s : State) (a : Word16) : (s.setPc a).dt = s.dt := rfl
@[simp] theorem State.setPc_st (s : State) (a : Word16) : (s.setPc a).st = s.st := rfl
@[simp] theorem State.setPc_lastTick (s : State) (a : Word16) : (s.setPc a).lastTick = s.lastTick := rfl
@[simp] theorem State.setPc_fb (s : State) (a : Word16) : (s.setPc a).fb = s.fb := rfl
@[simp] theorem State.setPc_keysCur (s : State) (a : Word16) : (s.setPc a).keysCur = s.keysCur := rfl
@[simp] theorem State.setPc_keysPrev (s : State) (a : Word16) : (s.setPc a).keysPrev = s.keysPrev := rfl
@[simp] theorem State.setPc_halted (s : State) (a : Word16) : (s.setPc a).halted = s.halted := rfl
@[simp] theorem State.setPc_mem (s : State) (a : Word16) : (s.setPc a).mem = s.mem := rfl
@[simp] theorem State.setPc_result (s : State) (a : Word16) : (s.setPc a).result = s.result := rfl
@[simp] theorem State.setPc_cfg (s : State) (a : Word16) : (s.setPc a).cfg = s.cfg := rfl
@[simp] theorem State.setPc_inputs (s : State) (a : Word16) : (s.setPc a).inputs = s.inputs := rfl
@[simp] theorem State.setPc_inputCount (s : State) (a : Word16) : (s.setPc a).inputCount = s.inputCount := rfl
@[simp] theorem State.setPc_input (s : State) (a : Word16) : (s.setPc a).input = s.input := rfl
@[simp] theorem State.setPc_launch (s : State) (a : Word16) : (s.setPc a).launch = s.launch := rfl

/-! push -/

@[simp] theorem State.push_v (s : State) (a : Word16) : (s.push a).v = s.v := rfl
@[simp] theorem State.push_i (s : State) (a : Word16) : (s.push a).i = s.i := rfl
@[simp] theorem State.push_pc (s : State) (a : Word16) : (s.push a).pc = s.pc := rfl
@[simp] theorem State.push_stack (s : State) (a : Word16) : (s.push a).stack = a :: s.stack := rfl
@[simp] theorem State.push_dt (s : State) (a : Word16) : (s.push a).dt = s.dt := rfl
@[simp] theorem State.push_st (s : State) (a : Word16) : (s.push a).st = s.st := rfl
@[simp] theorem State.push_lastTick (s : State) (a : Word16) : (s.push a).lastTick = s.lastTick := rfl
@[simp] theorem State.push_fb (s : State) (a : Word16) : (s.push a).fb = s.fb := rfl
@[simp] theorem State.push_keysCur (s : State) (a : Word16) : (s.push a).keysCur = s.keysCur := rfl
@[simp] theorem State.push_keysPrev (s : State) (a : Word16) : (s.push a).keysPrev = s.keysPrev := rfl
@[simp] theorem State.push_halted (s : State) (a : Word16) : (s.push a).halted = s.halted := rfl
@[simp] theorem State.push_mem (s : State) (a : Word16) : (s.push a).mem = s.mem := rfl
@[simp] theorem State.push_result (s : State) (a : Word16) : (s.push a).result = s.result := rfl
@[simp] theorem State.push_cfg (s : State) (a : Word16) : (s.push a).cfg = s.cfg := rfl
@[simp] theorem State.push_inputs (s : State) (a : Word16) : (s.push a).inputs = s.inputs := rfl
@[simp] theorem State.push_inputCount (s : State) (a : Word16) : (s.push a).inputCount = s.inputCount := rfl
@[simp] theorem State.push_input (s : State) (a : Word16) : (s.push a).input = s.input := rfl
@[simp] theorem State.push_launch (s : State) (a : Word16) : (s.push a).launch = s.launch := rfl

/-! writeByte -/

@[simp] theorem State.writeByte_v (s : State) (a : Nat) (b : Byte) : (s.writeByte a b).v = s.v := rfl
@[simp] theorem State.writeByte_i (s : State) (a : Nat) (b : Byte) : (s.writeByte a b).i = s.i := rfl
@[simp] theorem State.writeByte_pc (s : State) (a : Nat) (b : Byte) : (s.writeByte a b).pc = s.pc := rfl
@[simp] theorem State.writeByte_stack (s : State) (a : Nat) (b : Byte) : (s.writeByte a b).stack = s.stack := rfl
@[simp] theorem State.writeByte_dt (s : State) (a : Nat) (b : Byte) : (s.writeByte a b).dt = s.dt := rfl
@[simp] theorem State.writeByte_st (s : State) (a : Nat) (b : Byte) : (s.writeByte a b).st = s.st := rfl
@[simp] theorem State.writeByte_lastTick (s : State) (a : Nat) (b : Byte) : (s.writeByte a b).lastTick = s.lastTick := rfl
@[simp] theorem State.writeByte_fb (s : State) (a : Nat) (b : Byte) : (s.writeByte a b).fb = s.fb := rfl
@[simp] theorem State.writeByte_keysCur (s : State) (a : Nat) (b : Byte) : (s.writeByte a b).keysCur = s.keysCur := rfl
@[simp] theorem State.writeByte_keysPrev (s : State) (a : Nat) (b : Byte) : (s.writeByte a b).keysPrev = s.keysPrev := rfl
@[simp] theorem State.writeByte_halted (s : State) (a : Nat) (b : Byte) : (s.writeByte a b).halted = s.halted := rfl
@[simp] theorem State.writeByte_mem (s : State) (a : Nat) (b : Byte) : (s.writeByte a b).mem = Memory.write s.memBase a b s.mem := rfl
@[simp] theorem State.writeByte_result (s : State) (a : Nat) (b : Byte) : (s.writeByte a b).result = s.result := rfl
@[simp] theorem State.writeByte_cfg (s : State) (a : Nat) (b : Byte) : (s.writeByte a b).cfg = s.cfg := rfl
@[simp] theorem State.writeByte_inputs (s : State) (a : Nat) (b : Byte) : (s.writeByte a b).inputs = s.inputs := rfl
@[simp] theorem State.writeByte_inputCount (s : State) (a : Nat) (b : Byte) : (s.writeByte a b).inputCount = s.inputCount := rfl
@[simp] theorem State.writeByte_input (s : State) (a : Nat) (b : Byte) : (s.writeByte a b).input = s.input := rfl
@[simp] theorem State.writeByte_launch (s : State) (a : Nat) (b : Byte) : (s.writeByte a b).launch = s.launch := rfl

/-! takeInput -/

@[simp] theorem State.takeInput_v (s : State) : (s.takeInput).v = s.v := rfl
@[simp] theorem State.takeInput_i (s : State) : (s.takeInput).i = s.i := rfl
@[simp] theorem State.takeInput_pc (s : State) : (s.takeInput).pc = s.pc := rfl
@[simp] theorem State.takeInput_stack (s : State) : (s.takeInput).stack = s.stack := rfl
@[simp] theorem State.takeInput_dt (s : State) : (s.takeInput).dt = s.dt := rfl
@[simp] theorem State.takeInput_st (s : State) : (s.takeInput).st = s.st := rfl
@[simp] theorem State.takeInput_lastTick (s : State) : (s.takeInput).lastTick = s.lastTick := rfl
@[simp] theorem State.takeInput_fb (s : State) : (s.takeInput).fb = s.fb := rfl
@[simp] theorem State.takeInput_keysCur (s : State) : (s.takeInput).keysCur = s.keysCur := rfl
@[simp] theorem State.takeInput_keysPrev (s : State) : (s.takeInput).keysPrev = s.keysPrev := rfl
@[simp] theorem State.takeInput_halted (s : State) : (s.takeInput).halted = s.halted := rfl
@[simp] theorem State.takeInput_mem (s : State) : (s.takeInput).mem = s.mem := rfl
@[simp] theorem State.takeInput_result (s : State) : (s.takeInput).result = s.result := rfl
@[simp] theorem State.takeInput_cfg (s : State) : (s.takeInput).cfg = s.cfg := rfl
@[simp] theorem State.takeInput_inputs (s : State) : (s.takeInput).inputs = s.inputs.tail := rfl
@[simp] theorem State.takeInput_inputCount (s : State) : (s.takeInput).inputCount = s.inputCount + 1 := rfl
@[simp] theorem State.takeInput_input (s : State) : (s.takeInput).input = s.nextInput := rfl
@[simp] theorem State.takeInput_launch (s : State) : (s.takeInput).launch = .stepping := rfl

/-! timerPhase -/

@[simp] theorem timerPhase_v (s : State) : (timerPhase s).v = s.v := rfl
@[simp] theorem timerPhase_i (s : State) : (timerPhase s).i = s.i := rfl
@[simp] theorem timerPhase_pc (s : State) : (timerPhase s).pc = s.pc := rfl
@[simp] theorem timerPhase_stack (s : State) : (timerPhase s).stack = s.stack := rfl
@[simp] theorem timerPhase_dt (s : State) : (timerPhase s).dt = countDown s.dt s.ticks := rfl
@[simp] theorem timerPhase_st (s : State) : (timerPhase s).st = countDown s.st s.ticks := rfl
@[simp] theorem timerPhase_lastTick (s : State) : (timerPhase s).lastTick = if 1 ≤ s.ticks then s.lastTick + s.ticks * s.cfg.tickPeriod else s.lastTick := rfl
@[simp] theorem timerPhase_fb (s : State) : (timerPhase s).fb = s.fb := rfl
@[simp] theorem timerPhase_keysCur (s : State) : (timerPhase s).keysCur = s.keysCur := rfl
@[simp] theorem timerPhase_keysPrev (s : State) : (timerPhase s).keysPrev = s.keysPrev := rfl
@[simp] theorem timerPhase_halted (s : State) : (timerPhase s).halted = s.halted := rfl
@[simp] theorem timerPhase_mem (s : State) : (timerPhase s).mem = s.mem := rfl
@[simp] theorem timerPhase_result (s : State) : (timerPhase s).result = s.result := rfl
@[simp] theorem timerPhase_cfg (s : State) : (timerPhase s).cfg = s.cfg := rfl
@[simp] theorem timerPhase_inputs (s : State) : (timerPhase s).inputs = s.inputs := rfl
@[simp] theorem timerPhase_inputCount (s : State) : (timerPhase s).inputCount = s.inputCount := rfl
@[simp] theorem timerPhase_input (s : State) : (timerPhase s).input = s.input := rfl
@[simp] theorem timerPhase_launch (s : State) : (timerPhase s).launch = s.launch := rfl

/-! inputPhase -/

@[simp] theorem inputPhase_v (s : State) : (inputPhase s).v = s.v := rfl
@[simp] theorem inputPhase_i (s : State) : (inputPhase s).i = s.i := rfl
@[simp] theorem inputPhase_pc (s : State) : (inputPhase s).pc = s.pc := rfl
@[simp] theorem inputPhase_stack (s : State) : (inputPhase s).stack = s.stack := rfl
@[simp] theorem inputPhase_dt (s : State) : (inputPhase s).dt = s.dt := rfl
@[simp] theorem inputPhase_st (s : State) : (inputPhase s).st = s.st := rfl
@[simp] theorem inputPhase_lastTick (s : State) : (inputPhase s).lastTick = s.lastTick := rfl
@[simp] theorem inputPhase_fb (s : State) : (inputPhase s).fb = s.fb := rfl
@[simp] theorem inputPhase_keysCur (s : State) : (inputPhase s).keysCur = s.input.keys := rfl
@[simp] theorem inputPhase_keysPrev (s : State) : (inputPhase s).keysPrev = s.keysCur := rfl
@[simp] theorem inputPhase_halted (s : State) : (inputPhase s).halted = s.halted := rfl
@[simp] theorem inputPhase_mem (s : State) : (inputPhase s).mem = s.mem := rfl
@[simp] theorem inputPhase_result (s : State) : (inputPhase s).result = s.result := rfl
@[simp] theorem inputPhase_cfg (s : State) : (inputPhase s).cfg = s.cfg := rfl
@[simp] theorem inputPhase_inputs (s : State) : (inputPhase s).inputs = s.inputs := rfl
@[simp] theorem inputPhase_inputCount (s : State) : (inputPhase s).inputCount = s.inputCount := rfl
@[simp] theorem inputPhase_input (s : State) : (inputPhase s).input = s.input := rfl
@[simp] theorem inputPhase_launch (s : State) : (inputPhase s).launch = s.launch := rfl

/-! advancePc -/

@[simp] theorem advancePc_v (s : State) : (advancePc s).v = s.v := rfl
@[simp] theorem advancePc_i (s : State) : (advancePc s).i = s.i := rfl
@[simp] theorem advancePc_pc (s : State) : (advancePc s).pc = s.pc + 2#16 := rfl
@[simp] theorem advancePc_stack (s : State) : (advancePc s).stack = s.stack := rfl
@[simp] theorem advancePc_dt (s : State) : (advancePc s).dt = s.dt := rfl
@[simp] theorem advancePc_st (s : State) : (advancePc s).st = s.st := rfl
@[simp] theorem advancePc_lastTick (s : State) : (advancePc s).lastTick = s.lastTick := rfl
@[simp] theorem advancePc_fb (s : State) : (advancePc s).fb = s.fb := rfl
@[simp] theorem advancePc_keysCur (s : State) : (advancePc s).keysCur = s.keysCur := rfl
@[simp] theorem advancePc_keysPrev (s : State) : (advancePc s).keysPrev = s.keysPrev := rfl
@[simp] theorem advancePc_halted (s : State) : (advancePc s).halted = s.halted := rfl
@[simp] theorem advancePc_mem (s : State) : (advancePc s).mem = s.mem := rfl
@[simp] theorem advancePc_result (s : State) : (advancePc s).result = s.result := rfl
@[simp] theorem advancePc_cfg (s : State) : (advancePc s).cfg = s.cfg := rfl
@[simp] theorem advancePc_inputs (s : State) : (advancePc s).inputs = s.inputs := rfl
@[simp] theorem advancePc_inputCount (s : State) : (advancePc s).inputCount = s.inputCount := rfl
@[simp] theorem advancePc_input (s : State) : (advancePc s).input = s.input := rfl
@[simp] theorem advancePc_launch (s : State) : (advancePc s).launch = s.launch := rfl

/-! reportPhase -/

@[simp] theorem reportPhase_v (s : State) (redraw : Bool) : (reportPhase redraw s).v = s.v := rfl
@[simp] theorem reportPhase_i (s : State) (redraw : Bool) : (reportPhase redraw s).i = s.i := rfl
@[simp] theorem reportPhase_pc (s : State) (redraw : Bool) : (reportPhase redraw s).pc = s.pc := rfl
@[simp] theorem reportPhase_stack (s : State) (redraw : Bool) : (reportPhase redraw s).stack = s.stack := rfl
@[simp] theorem reportPhase_dt (s : State) (redraw : Bool) : (reportPhase redraw s).dt = s.dt := rfl
@[simp] theorem reportPhase_st (s : State) (redraw : Bool) : (reportPhase redraw s).st = s.st := rfl
@[simp] theorem reportPhase_lastTick (s : State) (redraw : Bool) : (reportPhase redraw s).lastTick = s.lastTick := rfl
@[simp] theorem reportPhase_fb (s : State) (redraw : Bool) : (reportPhase redraw s).fb = s.fb := rfl
@[simp] theorem reportPhase_keysCur (s : State) (redraw : Bool) : (reportPhase redraw s).keysCur = s.keysCur := rfl
@[simp] theorem reportPhase_keysPrev (s : State) (redraw : Bool) : (reportPhase redraw s).keysPrev = s.keysPrev := rfl
@[simp] theorem reportPhase_halted (s : State) (redraw : Bool) : (reportPhase redraw s).halted = s.halted := rfl
@[simp] theorem reportPhase_mem (s : State) (redraw : Bool) : (reportPhase redraw s).mem = s.mem := rfl
@[simp] theorem reportPhase_result (s : State) (redraw : Bool) : (reportPhase redraw s).result = some (stepResult redraw s) := rfl
@[simp] theorem reportPhase_cfg (s : State) (redraw : Bool) : (reportPhase redraw s).cfg = s.cfg := rfl
@[simp] theorem reportPhase_inputs (s : State) (redraw : Bool) : (reportPhase redraw s).inputs = s.inputs := rfl
@[simp] theorem reportPhase_inputCount (s : State) (redraw : Bool) : (reportPhase redraw s).inputCount = s.inputCount := rfl
@[simp] theorem reportPhase_input (s : State) (redraw : Bool) : (reportPhase redraw s).input = s.input := rfl
@[simp] theorem reportPhase_launch (s : State) (redraw : Bool) : (reportPhase redraw s).launch = s.launch := rfl

/-! Registers and memory seen through the updates. -/

theorem State.getV_setV (s : State) (r q : RegIx) (b : Byte) :
    (s.setV r b).getV q = if q = r then b else s.getV q := by
  unfold State.getV State.setV
  simp only [Fin.getElem_fin, Vector.getElem_set]
  by_cases h : q = r
  · simp [h]
  · simp [h, Fin.val_inj, Ne.symm (a := q) (b := r) h]

@[simp] theorem State.getV_setV_self (s : State) (r : RegIx) (b : Byte) : (s.setV r b).getV r = b := by
  simp [State.getV_setV]

@[simp] theorem State.getV_setV_ne (s : State) {r q : RegIx} (h : q ≠ r) (b : Byte) :
    (s.setV r b).getV q = s.getV q := by
  simp [State.getV_setV, h]

/-- A register is read from `v` alone. -/
theorem State.getV_congr {s t : State} (h : t.v = s.v) (r : RegIx) : t.getV r = s.getV r := by
  unfold State.getV; rw [h]

/-- A byte is read from `mem` and the font alone. -/
theorem State.readByte_congr {s t : State} (hm : t.mem = s.mem) (hc : t.cfg = s.cfg) (a : Nat) :
    t.readByte a = s.readByte a := by
  unfold State.readByte State.memBase; rw [hm, hc]

@[simp] theorem State.setV_readByte (s : State) (r : RegIx) (b : Byte) (a : Nat) : (s.setV r b).readByte a = s.readByte a := rfl
@[simp] theorem State.setV_memBase (s : State) (r : RegIx) (b : Byte) : (s.setV r b).memBase = s.memBase := rfl
@[simp] theorem State.setI_getV (s : State) (a : Word16) (r : RegIx) : (s.setI a).getV r = s.getV r := rfl
@[simp] theorem State.setI_readByte (s : State) (a : Word16) (a' : Nat) : (s.setI a).readByte a' = s.readByte a' := rfl
@[simp] theorem State.setI_memBase (s : State) (a : Word16) : (s.setI a).memBase = s.memBase := rfl
@[simp] theorem State.setPc_getV (s : State) (a : Word16) (r : RegIx) : (s.setPc a).getV r = s.getV r := rfl
@[simp] theorem State.setPc_readByte (s : State) (a : Word16) (a' : Nat) : (s.setPc a).readByte a' = s.readByte a' := rfl
@[simp] theorem State.setPc_memBase (s : State) (a : Word16) : (s.setPc a).memBase = s.memBase := rfl
@[simp] theorem State.push_getV (s : State) (a : Word16) (r : RegIx) : (s.push a).getV r = s.getV r := rfl
@[simp] theorem State.push_readByte (s : State) (a : Word16) (a' : Nat) : (s.push a).readByte a' = s.readByte a' := rfl
@[simp] theorem State.push_memBase (s : State) (a : Word16) : (s.push a).memBase = s.memBase := rfl
@[simp] theorem State.writeByte_getV (s : State) (a : Nat) (b : Byte) (r : RegIx) : (s.writeByte a b).getV r = s.getV r := rfl
@[simp] theorem State.writeByte_memBase (s : State) (a : Nat) (b : Byte) : (s.writeByte a b).memBase = s.memBase := rfl
@[simp] theorem State.takeInput_getV (s : State) (r : RegIx) : (s.takeInput).getV r = s.getV r := rfl
@[simp] theorem State.takeInput_readByte (s : State) (a : Nat) : (s.takeInput).readByte a = s.readByte a := rfl
@[simp] theorem State.takeInput_memBase (s : State) : (s.takeInput).memBase = s.memBase := rfl
@[simp] theorem timerPhase_getV (s : State) (r : RegIx) : (timerPhase s).getV r = s.getV r := rfl
@[simp] theorem timerPhase_readByte (s : State) (a : Nat) : (timerPhase s).readByte a = s.readByte a := rfl
@[simp] theorem timerPhase_memBase (s : State) : (timerPhase s).memBase = s.memBase := rfl
@[simp] theorem inputPhase_getV (s : State) (r : RegIx) : (inputPhase s).getV r = s.getV r := rfl
@[simp] theorem inputPhase_readByte (s : State) (a : Nat) : (inputPhase s).readByte a = s.readByte a := rfl
@[simp] theorem inputPhase_memBase (s : State) : (inputPhase s).memBase = s.memBase := rfl
@[simp] theorem advancePc_getV (s : State) (r : RegIx) : (advancePc s).getV r = s.getV r := rfl
@[simp] theorem advancePc_readByte (s : State) (a : Nat) : (advancePc s).readByte a = s.readByte a := rfl
@[simp] theorem advancePc_memBase (s : State) : (advancePc s).memBase = s.memBase := rfl
@[simp] theorem reportPhase_getV (s : State) (redraw : Bool) (r : RegIx) : (reportPhase redraw s).getV r = s.getV r := rfl
@[simp] theorem reportPhase_readByte (s : State) (redraw : Bool) (a : Nat) : (reportPhase redraw s).readByte a = s.readByte a := rfl
@[simp] theorem reportPhase_memBase (s : State) (redraw : Bool) : (reportPhase redraw s).memBase = s.memBase := rfl

end Sys2Proof.Machine
end

