-- ==== Sys2Proof/Laws/Memory.lean ====
section
/-! SUPPORT. The memory operations: a read after a write, and the canonical form that every operation keeps. -/

namespace Sys2Proof.Machine

/-- The cells' addresses are what a read looks at: an address that no cell has reads as `base`. -/
theorem Memory.read_of_not_mem (base : Nat → Byte) (m : Memory) (a : Nat) (h : ∀ c ∈ m, c.1 ≠ a) :
    Memory.read base m a = base a := by
  induction m with
  | nil => rfl
  | cons c rest ih =>
    obtain ⟨b, w⟩ := c
    have hb : a ≠ b := fun e => h (b, w) (by simp) e.symm
    simp only [Memory.read, hb, if_false]
    exact ih (fun c hc => h c (by simp [hc]))

theorem Memory.mem_erase {a : Nat} {m : Memory} {c : Host.Cell} : c ∈ Memory.erase a m ↔ c ∈ m ∧ c.1 ≠ a := by
  simp [Memory.erase]

theorem Memory.mem_insert {a : Nat} {v : Byte} {m : Memory} {c : Host.Cell} :
    c ∈ Memory.insert a v m ↔ c = (a, v) ∨ c ∈ m := by
  induction m with
  | nil => simp [Memory.insert]
  | cons d rest ih =>
    simp only [Memory.insert]
    split <;> simp [ih]
    tauto

theorem Memory.read_erase_ne (base : Nat → Byte) (m : Memory) {a b : Nat} (h : b ≠ a) :
    Memory.read base (Memory.erase a m) b = Memory.read base m b := by
  induction m with
  | nil => rfl
  | cons c rest ih =>
    obtain ⟨d, w⟩ := c
    by_cases hd : d = a
    · subst hd
      have he : Memory.erase d ((d, w) :: rest) = Memory.erase d rest := by simp [Memory.erase]
      simp [he, Memory.read, ih, h]
    · have he : Memory.erase a ((d, w) :: rest) = (d, w) :: Memory.erase a rest := by simp [Memory.erase, hd]
      simp [he, Memory.read, ih]

theorem Memory.read_insert (base : Nat → Byte) (m : Memory) (a b : Nat) (v : Byte) (hm : ∀ c ∈ m, c.1 ≠ a) :
    Memory.read base (Memory.insert a v m) b = if b = a then v else Memory.read base m b := by
  induction m with
  | nil => simp [Memory.insert, Memory.read]
  | cons c rest ih =>
    obtain ⟨d, w⟩ := c
    have hd : d ≠ a := hm (d, w) (by simp)
    have ih := ih (fun c hc => hm c (by simp [hc]))
    simp only [Memory.insert]
    by_cases hlt : a < d
    · simp [hlt, Memory.read]
    · simp only [hlt, if_false, Memory.read, ih]
      by_cases hb : b = d
      · simp [hb, hd]
      · simp [hb]

/-- A read after a write: the byte written at its address, every other byte as before, in any memory. -/
theorem Memory.read_put (base : Nat → Byte) (m : Memory) (a b : Nat) (v : Byte) :
    Memory.read base (Memory.put base a v m) b = if b = a then v else Memory.read base m b := by
  unfold Memory.put
  by_cases hv : v = base a
  · simp only [hv, if_true]
    by_cases hb : b = a
    · simp only [hb, if_true]
      exact Memory.read_of_not_mem base _ a (fun c hc => (Memory.mem_erase.mp hc).2)
    · simp only [hb, if_false]; exact Memory.read_erase_ne base m hb
  · simp only [hv, if_false]
    rw [Memory.read_insert base _ a b v (fun c hc => (Memory.mem_erase.mp hc).2)]
    by_cases hb : b = a
    · simp [hb]
    · simp only [hb, if_false]; exact Memory.read_erase_ne base m hb

theorem Memory.insert_sorted (a : Nat) (v : Byte) (m : Memory) (hs : m.Pairwise (fun p q => p.1 < q.1))
    (hm : ∀ c ∈ m, c.1 ≠ a) : (Memory.insert a v m).Pairwise (fun p q => p.1 < q.1) := by
  induction m with
  | nil => simp [Memory.insert]
  | cons c rest ih =>
    obtain ⟨hc, hrest⟩ := List.pairwise_cons.mp hs
    have hca : c.1 ≠ a := hm c (by simp)
    simp only [Memory.insert]
    split
    · rename_i hlt
      refine List.pairwise_cons.mpr ⟨fun d hd => ?_, hs⟩
      rcases List.mem_cons.mp hd with rfl | hd
      · exact hlt
      · exact lt_trans hlt (hc d hd)
    · rename_i hlt
      refine List.pairwise_cons.mpr ⟨fun d hd => ?_, ih hrest (fun d hd => hm d (by simp [hd]))⟩
      rcases Memory.mem_insert.mp hd with rfl | hd
      · exact lt_of_le_of_ne (Nat.le_of_not_lt hlt) hca
      · exact hc d hd

theorem Memory.erase_wf {base : Nat → Byte} {m : Memory} (a : Nat) (h : Memory.wf base m) :
    Memory.wf base (Memory.erase a m) :=
  ⟨h.1.filter _, fun c hc => h.2 c (Memory.mem_erase.mp hc).1⟩

/-- Every write keeps the canonical form. -/
theorem Memory.write_wf {base : Nat → Byte} {m : Memory} (a : Nat) (v : Byte) (h : Memory.wf base m) :
    Memory.wf base (Memory.write base a v m) := by
  unfold Memory.write
  by_cases ha : a < Config.memSize
  · simp only [ha, if_true, Memory.put]
    have he := Memory.erase_wf a h
    by_cases hv : v = base a
    · simpa only [hv, if_true] using he
    · simp only [hv, if_false]
      refine ⟨Memory.insert_sorted a v _ he.1 (fun c hc => (Memory.mem_erase.mp hc).2), fun c hc => ?_⟩
      rcases Memory.mem_insert.mp hc with rfl | hc
      · exact ⟨ha, hv⟩
      · exact he.2 c hc
  · simpa only [ha, if_false] using h

/-- A store at an address that exists. -/
theorem State.readByte_writeByte (s : State) {a : Nat} (b : Nat) (v : Byte) (ha : a < Config.memSize) :
    (s.writeByte a v).readByte b = if b = a then v else s.readByte b := by
  simp only [State.readByte, State.writeByte_memBase, State.writeByte_mem, Memory.write, ha, if_true]
  exact Memory.read_put _ _ _ _ _

/-- Bytes stored at consecutive addresses that exist: each reads back, every other byte is as before. -/
theorem State.readByte_writeBytes (vs : List Byte) (a : Nat) (s : State) (h : a + vs.length ≤ Config.memSize) (b : Nat) :
    (s.writeBytes a vs).readByte b =
      if hb : a ≤ b ∧ b < a + vs.length then vs[b - a]'(by omega) else s.readByte b := by
  induction vs generalizing a s with
  | nil => simp [State.writeBytes]
  | cons v vs ih =>
    simp only [List.length_cons] at h
    simp only [State.writeBytes, List.length_cons]
    rw [ih (a + 1) (s.writeByte a v) (by omega), State.readByte_writeByte s b v (by omega)]
    by_cases hba : b = a
    · subst hba; simp
    · by_cases hin : a + 1 ≤ b ∧ b < a + 1 + vs.length
      · have h1 : a ≤ b ∧ b < a + (vs.length + 1) := by omega
        have h2 : b - a = (b - (a + 1)) + 1 := by omega
        simp only [hin, h1, and_self, dif_pos]
        simp [h2]
      · have h1 : ¬(a ≤ b ∧ b < a + (vs.length + 1)) := by omega
        simp only [hin, h1, dif_neg, not_false_iff, hba, if_false]

/-- Stores change `mem` alone. -/
theorem State.writeBytes_eq (vs : List Byte) (a : Nat) (s : State) :
    s.writeBytes a vs = { s with mem := (s.writeBytes a vs).mem } := by
  induction vs generalizing a s with
  | nil => rfl
  | cons v vs ih =>
    simp only [State.writeBytes]
    rw [ih (a + 1) (s.writeByte a v)]
    rfl

/-- Stores keep the canonical form. -/
theorem State.writeBytes_wf (vs : List Byte) (a : Nat) (s : State) (h : Memory.wf s.memBase s.mem) :
    Memory.wf s.memBase (s.writeBytes a vs).mem := by
  induction vs generalizing a s with
  | nil => exact h
  | cons v vs ih => exact ih (a + 1) (s.writeByte a v) (Memory.write_wf a v h)

theorem State.writeByte_wf (v : Byte) (a : Nat) (s : State) (h : Memory.wf s.memBase s.mem) :
    Memory.wf s.memBase (s.writeByte a v).mem := Memory.write_wf a v h

/-- Reset lists nothing. -/
theorem State.resetAt_mem_wf (t0 : Nat) (cfg : Config.Params) :
    Memory.wf (State.resetAt t0 cfg).memBase (State.resetAt t0 cfg).mem := by
  exact ⟨List.Pairwise.nil, fun c hc => absurd hc List.not_mem_nil⟩

theorem State.readBytes_length (s : State) (a len : Nat) : (s.readBytes a len).length = len := by
  induction len generalizing a with
  | zero => rfl
  | succ n ih => simp [State.readBytes, ih]

theorem State.readBytes_getElem (s : State) (a len k : Nat) (h : k < (s.readBytes a len).length) :
    (s.readBytes a len)[k] = s.readByte (a + k) := by
  induction len generalizing a k with
  | zero => simp [State.readBytes] at h
  | succ n ih =>
    cases k with
    | zero => simp [State.readBytes]
    | succ k => simp [State.readBytes, ih]; congr 1; omega

end Sys2Proof.Machine
end

