-- ==== Sys2Proof/Laws/Ops.lean ====
section
/-! SUPPORT. What the shared operations of Ops, Operands and Flags do, said once. -/

namespace Sys2Proof.Machine

/-! The range check. -/

theorem outOfRange_none {base len : Nat} (h : len = 0 ∨ base + len ≤ Config.memSize) : outOfRange base len = none := by
  simp [outOfRange, h]

theorem outOfRange_some {base len : Nat} (h0 : len ≠ 0) (h : Config.memSize < base + len) :
    outOfRange base len = some (max base Config.memSize) := by
  have : ¬(len = 0 ∨ base + len ≤ Config.memSize) := by omega
  simp [outOfRange, this]

theorem withinMemory_in {base len : Nat} (effect : State → State) (s : State)
    (h : len = 0 ∨ base + len ≤ Config.memSize) : withinMemory base len effect s = .next (effect s) := by
  simp [withinMemory, outOfRange_none h]

theorem withinMemory_out {base len : Nat} (effect : State → State) (s : State) (h0 : len ≠ 0)
    (h : Config.memSize < base + len) :
    withinMemory base len effect s = raise (.addressOutOfRange (max base Config.memSize)) s := by
  simp [withinMemory, outOfRange_some h0 h]

/-- Everything `withinMemory` can do. -/
theorem withinMemory_cases (base len : Nat) (effect : State → State) (s : State) :
    ((len = 0 ∨ base + len ≤ Config.memSize) ∧ withinMemory base len effect s = .next (effect s)) ∨
    ((len ≠ 0 ∧ Config.memSize < base + len) ∧
      withinMemory base len effect s = .next { s with halted := some (.addressOutOfRange (max base Config.memSize)) }) := by
  by_cases h : len = 0 ∨ base + len ≤ Config.memSize
  · exact .inl ⟨h, withinMemory_in effect s h⟩
  · exact .inr ⟨by omega, withinMemory_out effect s (by omega) (by omega)⟩

/-! `pc`, flags. -/

@[simp] theorem skipIf_true (s : State) : skipIf true s = s.setPc (s.pc + 2#16) := rfl
@[simp] theorem skipIf_false (s : State) : skipIf false s = s := rfl

theorem skipIf_eq (taken : Bool) (s : State) : skipIf taken s = s.setPc (if taken then s.pc + 2#16 else s.pc) := by
  cases taken <;> rfl

theorem flagThenResult_eq (x : RegIx) (flag : Bool) (result : Byte) (s : State) :
    flagThenResult x flag result s = { s with v := (flagThenResult x flag result s).v } := rfl

/-- The result always stays; the flag stays unless the result's register is VF (43_load_alu.md R132). -/
theorem flagThenResult_getV (x q : RegIx) (flag : Bool) (result : Byte) (s : State) :
    (flagThenResult x flag result s).getV q =
      if q = x then result else if q = vf then flagByte flag else s.getV q := by
  simp only [flagThenResult, State.getV_setV]

theorem zextAddr_toNat (nnn : BitVec 12) : (zextAddr nnn).toNat = nnn.toNat := by
  have := nnn.isLt
  simp [zextAddr]; omega

theorem zextByte_toNat (b : Byte) : (zextByte b).toNat = b.toNat := by
  have := b.isLt
  simp [zextByte]; omega

/-! The call stack. -/

theorem State.stackFull_iff (s : State) :
    s.stackFull = true ↔ ∃ depth, s.cfg.stackDepth = some depth ∧ depth ≤ s.stack.length := by
  unfold State.stackFull State.sp
  cases s.cfg.stackDepth <;> simp

/-! Block transfers. -/

theorem regAt_eq (q : RegIx) (k : Nat) (hk : k < 16) : q = regAt k ↔ q.val = k := by
  rw [Fin.ext_iff]
  simp only [regAt]
  omega

@[simp] theorem regAt_val (r : RegIx) : regAt r.val = r := ((regAt_eq r r.val r.isLt).mpr rfl).symm

theorem State.regRange_length (s : State) (x : RegIx) : (s.regRange x).length = x.val + 1 := by
  simp [State.regRange]

theorem State.regRange_getElem (s : State) (x : RegIx) (k : Nat) (h : k < (s.regRange x).length) :
    (s.regRange x)[k] = s.getV (regAt k) := by
  simp [State.regRange]

theorem loadRegs_eq (a n : Nat) (s : State) : loadRegs a n s = { s with v := (loadRegs a n s).v } := by
  induction n with
  | zero => rfl
  | succ n ih =>
    simp only [loadRegs]
    generalize loadRegs a n s = t at ih ⊢
    rw [ih]; rfl

/-- The registers below `n` hold the bytes from `a`, the others are as before. -/
theorem loadRegs_getV (a n : Nat) (hn : n ≤ 16) (s : State) (q : RegIx) :
    (loadRegs a n s).getV q = if q.val < n then s.readByte (a + q.val) else s.getV q := by
  induction n with
  | zero => simp [loadRegs]
  | succ n ih =>
    have ih := ih (by omega)
    simp only [loadRegs, State.getV_setV, ih]
    have hq := regAt_eq q n (by omega)
    by_cases h : q.val = n
    · simp [hq, h]
    · have h1 : (q.val < n + 1) ↔ (q.val < n) := by omega
      simp [hq, h, h1]

/-! Keys. -/

theorem mem_keyCodes {keys : Word16} {k : Nat} : k ∈ keyCodes keys ↔ k < 16 ∧ keys.getLsbD k = true := by
  simp [keyCodes]

theorem keyCodes_ne_nil {keys : Word16} (h : keys ≠ 0#16) : keyCodes keys ≠ [] := by
  intro hn
  apply h
  apply BitVec.eq_of_getLsbD_eq
  intro k hk
  have : k ∉ keyCodes keys := by simp [hn]
  rw [mem_keyCodes] at this
  simp only [BitVec.getLsbD_zero]
  by_contra hc
  exact this ⟨hk, by simpa using hc⟩

/-- Whatever the draw, the key picked is a member of a set that is not empty (46_keypad_timers.md R173). -/
theorem pickKey_mem {keys : Word16} (h : keys ≠ 0#16) (pick : Nat) : pickKey keys pick ∈ keyCodes keys := by
  have hl : 0 < (keyCodes keys).length := List.length_pos_iff.mpr (keyCodes_ne_nil h)
  have hp : pick % (keyCodes keys).length < (keyCodes keys).length := Nat.mod_lt _ hl
  unfold pickKey
  rw [List.getD_eq_getElem?_getD, List.getElem?_eq_getElem hp]
  exact List.getElem_mem hp

/-- Every member is picked by some draw. -/
theorem pickKey_surj {keys : Word16} {k : Nat} (h : k ∈ keyCodes keys) : ∃ pick, pickKey keys pick = k := by
  obtain ⟨j, hj, rfl⟩ := List.getElem_of_mem h
  refine ⟨j, ?_⟩
  unfold pickKey
  rw [Nat.mod_eq_of_lt hj, List.getD_eq_getElem?_getD, List.getElem?_eq_getElem hj]
  rfl

end Sys2Proof.Machine
end

