-- ==== Sys2Proof/Laws/Display.lean ====
section
/-! SUPPORT. The blit of 45_display.md R161 in closed form: which pixels a sprite inverts, and when it collides. -/

namespace Sys2Proof.Machine

theorem fbPixel_fbFlip (fb : Framebuffer) (px py qx qy : Nat) :
    fbPixel (fbFlip fb px py) qx qy =
      if qx % 64 = px % 64 ∧ qy % 32 = py % 32 then !(fbPixel fb px py) else fbPixel fb qx qy := by
  unfold fbFlip fbPixel
  by_cases hy : qy % 32 = py % 32
  · by_cases hx : qx % 64 = px % 64
    · simp [hy, hx]
    · simp [hy, hx, Vector.getElem_set_ne, Ne.symm hx]
  · simp [hy, Vector.getElem_set_ne, Ne.symm hy]

/-- The columns from `lo` on of a sprite row at (vx, py) invert the pixel (qx, qy). -/
def RowOn (vx py : Nat) (row : Byte) (lo qx qy : Nat) : Prop :=
  ∃ c, lo ≤ c ∧ c < 8 ∧ (vx + c) % 64 = qx % 64 ∧ py % 32 = qy % 32 ∧ row.getLsbD (7 - c) = true

theorem rowOn_succ (vx py : Nat) (row : Byte) (lo qx qy : Nat) (hlo : lo < 8) :
    RowOn vx py row lo qx qy ↔
      ((vx + lo) % 64 = qx % 64 ∧ py % 32 = qy % 32 ∧ row.getLsbD (7 - lo) = true) ∨ RowOn vx py row (lo + 1) qx qy := by
  constructor
  · rintro ⟨c, h1, h2, h3⟩
    by_cases hc : c = lo
    · subst hc; exact .inl h3
    · exact .inr ⟨c, by omega, h2, h3⟩
  · rintro (h | ⟨c, h1, h2, h3⟩)
    · exact ⟨lo, le_refl _, hlo, h⟩
    · exact ⟨c, by omega, h2, h3⟩

theorem rowOn_not_both (vx py : Nat) (row : Byte) (lo qx qy : Nat) (hlo : lo < 8) (h : (vx + lo) % 64 = qx % 64) :
    ¬RowOn vx py row (lo + 1) qx qy := by
  rintro ⟨c, h1, h2, h3, -⟩
  omega

theorem rowOn_eight (vx py : Nat) (row : Byte) (qx qy : Nat) : ¬RowOn vx py row 8 qx qy := by
  rintro ⟨c, h1, h2, -⟩
  omega

theorem blitBit_pixel (px py : Nat) (bit : Bool) (b : Blit) (qx qy : Nat) :
    fbPixel (blitBit px py bit b).fb qx qy = true ↔
      ¬(fbPixel b.fb qx qy = true ↔ (px % 64 = qx % 64 ∧ py % 32 = qy % 32 ∧ bit = true)) := by
  cases bit with
  | false => simp [blitBit]
  | true =>
    simp only [blitBit, if_true, fbPixel_fbFlip]
    by_cases h : qx % 64 = px % 64 ∧ qy % 32 = py % 32
    · have hp : fbPixel b.fb px py = fbPixel b.fb qx qy := by unfold fbPixel; simp only [h.1, h.2]
      simp [h, hp]
    · have h' : ¬(px % 64 = qx % 64 ∧ py % 32 = qy % 32) := fun e => h ⟨e.1.symm, e.2.symm⟩
      simp [h, h']

/-- The pixels after the last `left` columns of a row. -/
theorem blitRow_pixel (vx py : Nat) (row : Byte) (left : Nat) (hl : left ≤ 8) (b : Blit) (qx qy : Nat) :
    fbPixel (blitRow vx py row left b).fb qx qy = true ↔
      ¬(fbPixel b.fb qx qy = true ↔ RowOn vx py row (8 - left) qx qy) := by
  induction left generalizing b with
  | zero => simp [blitRow, rowOn_eight]
  | succ left ih =>
    have hc : 8 - left = (8 - (left + 1)) + 1 := by omega
    simp only [blitRow]
    rw [ih (by omega), blitBit_pixel, hc, rowOn_succ vx py row (8 - (left + 1)) qx qy (by omega)]
    have hno := rowOn_not_both vx py row (8 - (left + 1)) qx qy (by omega)
    tauto

/-- The collision flag after the last `left` columns of a row: pixels are looked at as they were before the row. -/
theorem blitRow_hit (vx py : Nat) (row : Byte) (left : Nat) (hl : left ≤ 8) (b : Blit) :
    (blitRow vx py row left b).hit = true ↔
      (b.hit = true ∨ ∃ qx qy, RowOn vx py row (8 - left) qx qy ∧ fbPixel b.fb qx qy = true) := by
  induction left generalizing b with
  | zero => simp [blitRow, rowOn_eight]
  | succ left ih =>
    have hc : 8 - left = (8 - (left + 1)) + 1 := by omega
    simp only [blitRow]
    rw [ih (by omega), hc]
    constructor
    · rintro (h | ⟨qx, qy, h, hp⟩)
      · unfold blitBit at h
        split at h
        · rename_i hbit
          simp only [Bool.or_eq_true] at h
          rcases h with h | h
          · exact .inl h
          · exact .inr ⟨vx + (8 - (left + 1)), py, (rowOn_succ _ _ _ _ _ _ (by omega)).mpr (.inl ⟨rfl, rfl, hbit⟩), h⟩
        · exact .inl h
      · refine .inr ⟨qx, qy, (rowOn_succ _ _ _ _ _ _ (by omega)).mpr (.inr h), ?_⟩
        rw [blitBit_pixel] at hp
        have hno : ¬((vx + (8 - (left + 1))) % 64 = qx % 64) :=
          fun e => rowOn_not_both vx py row _ qx qy (by omega) e h
        tauto
    · rintro (h | ⟨qx, qy, h, hp⟩)
      · left
        unfold blitBit
        split
        · simp [h]
        · exact h
      · rcases (rowOn_succ _ _ _ _ _ _ (by omega)).mp h with ⟨h1, h2, h3⟩ | h
        · left
          have hpp : fbPixel b.fb (vx + (8 - (left + 1))) py = true := by
            rw [← hp]; unfold fbPixel; simp only [h1, h2]
          unfold blitBit
          rw [if_pos h3]
          exact Bool.or_eq_true _ _ ▸ .inr hpp
        · right
          refine ⟨qx, qy, h, ?_⟩
          rw [blitBit_pixel]
          have hno : ¬((vx + (8 - (left + 1))) % 64 = qx % 64) :=
            fun e => rowOn_not_both vx py row _ qx qy (by omega) e h
          tauto

/-- The sprite rows, the first at row index `r`, invert the pixel (qx, qy). -/
def RowsOn (vx vy r : Nat) (rows : List Byte) (qx qy : Nat) : Prop :=
  ∃ k, ∃ h : k < rows.length, RowOn vx (vy + (r + k)) rows[k] 0 qx qy

theorem rowsOn_cons (vx vy r : Nat) (row : Byte) (rows : List Byte) (qx qy : Nat) :
    RowsOn vx vy r (row :: rows) qx qy ↔ RowOn vx (vy + r) row 0 qx qy ∨ RowsOn vx vy (r + 1) rows qx qy := by
  constructor
  · rintro ⟨k, hk, h⟩
    cases k with
    | zero => exact .inl h
    | succ k =>
      refine .inr ⟨k, by simpa using hk, ?_⟩
      have : r + 1 + k = r + (k + 1) := by omega
      rw [this]; simpa using h
  · rintro (h | ⟨k, hk, h⟩)
    · exact ⟨0, by simp, h⟩
    · refine ⟨k + 1, by simpa using hk, ?_⟩
      have : r + (k + 1) = r + 1 + k := by omega
      rw [this]; simpa using h

theorem rowsOn_not_both (vx vy r : Nat) (row : Byte) (rows : List Byte) (qx qy : Nat) (hlen : rows.length < 32)
    (h : RowOn vx (vy + r) row 0 qx qy) : ¬RowsOn vx vy (r + 1) rows qx qy := by
  rintro ⟨k, hk, c', -, -, -, hy', -⟩
  obtain ⟨c, -, -, -, hy, -⟩ := h
  omega

/-- Each pixel after the blit: inverted exactly where the sprite has a 1 bit over it. -/
theorem blitRows_pixel (vx vy : Nat) (rows : List Byte) (r : Nat) (hlen : rows.length ≤ 32) (b : Blit) (qx qy : Nat) :
    fbPixel (blitRows vx vy r rows b).fb qx qy = true ↔
      ¬(fbPixel b.fb qx qy = true ↔ RowsOn vx vy r rows qx qy) := by
  induction rows generalizing r b with
  | nil => simp [blitRows, RowsOn]
  | cons row rows ih =>
    simp only [List.length_cons] at hlen
    simp only [blitRows]
    rw [ih (r + 1) (by omega), blitRow_pixel vx _ row 8 (le_refl 8), rowsOn_cons]
    have hno := rowsOn_not_both vx vy r row rows qx qy (by omega)
    simp only [Nat.sub_self]
    tauto

/-- The blit collides exactly when a 1 bit of the sprite lies over a pixel that was on before the blit. -/
theorem blitRows_hit (vx vy : Nat) (rows : List Byte) (r : Nat) (hlen : rows.length ≤ 32) (b : Blit) :
    (blitRows vx vy r rows b).hit = true ↔
      (b.hit = true ∨ ∃ qx qy, RowsOn vx vy r rows qx qy ∧ fbPixel b.fb qx qy = true) := by
  induction rows generalizing r b with
  | nil => simp [blitRows, RowsOn]
  | cons row rows ih =>
    simp only [List.length_cons] at hlen
    simp only [blitRows]
    rw [ih (r + 1) (by omega), blitRow_hit vx _ row 8 (le_refl 8)]
    simp only [Nat.sub_self]
    constructor
    · rintro ((h | ⟨qx, qy, h, hp⟩) | ⟨qx, qy, h, hp⟩)
      · exact .inl h
      · exact .inr ⟨qx, qy, (rowsOn_cons ..).mpr (.inl h), hp⟩
      · refine .inr ⟨qx, qy, (rowsOn_cons ..).mpr (.inr h), ?_⟩
        rw [blitRow_pixel vx _ row 8 (le_refl 8), Nat.sub_self] at hp
        have hno := rowsOn_not_both vx vy r row rows qx qy (by omega)
        tauto
    · rintro (h | ⟨qx, qy, h, hp⟩)
      · exact .inl (.inl h)
      · rcases (rowsOn_cons ..).mp h with h | h
        · exact .inl (.inr ⟨qx, qy, h, hp⟩)
        · refine .inr ⟨qx, qy, h, ?_⟩
          rw [blitRow_pixel vx _ row 8 (le_refl 8), Nat.sub_self]
          have hno := rowsOn_not_both vx vy r row rows qx qy (by omega)
          tauto

end Sys2Proof.Machine
end

