-- ==== Sys2Proof/Laws/Exec.lean ====
section
/-! SUPPORT. The frame of each shared operation, the closed form of Draw, and that every execute phase answers next. -/

namespace Sys2Proof.Machine

/-! Frames of the shared operations. -/

theorem Frame.rfl' (w : Writes) (s : State) : Frame w s s := by
  constructor <;> intros <;> rfl

theorem State.setV_frame (s : State) (x : RegIx) (b : Byte) : Frame { regs := [x] } s (s.setV x b) := by
  constructor <;> intros <;> try rfl
  rename_i r h
  exact State.getV_setV_ne s (by simpa using h) b

theorem flagThenResult_frame (s : State) (x : RegIx) (flag : Bool) (b : Byte) :
    Frame { regs := [x, vf] } s (flagThenResult x flag b s) := by
  constructor <;> intros <;> try rfl
  rename_i r h
  have h : r ≠ x ∧ r ≠ vf := by simpa using h
  simp [flagThenResult_getV, h.1, h.2]

theorem State.setPc_frame (s : State) (a : Word16) : Frame { pc := true } s (s.setPc a) := by
  constructor <;> intros <;> first | rfl | contradiction

theorem State.setI_frame (s : State) (a : Word16) : Frame { index := true } s (s.setI a) := by
  constructor <;> intros <;> first | rfl | contradiction

theorem skipIf_frame (s : State) (taken : Bool) : Frame { pc := true } s (skipIf taken s) := by
  rw [skipIf_eq]; exact State.setPc_frame s _

theorem raise_frame (s : State) (e : FatalError) : Frame { halted := true } s { s with halted := some e } := by
  constructor <;> intros <;> first | rfl | contradiction

/-- A state that differs in `mem` alone. -/
theorem Frame.of_mem {s : State} {m : Memory} {lo len : Nat}
    (h : ∀ a, ¬(lo ≤ a ∧ a < lo + len) → State.readByte { s with mem := m } a = s.readByte a) :
    Frame { memLo := lo, memLen := len } s { s with mem := m } := by
  constructor <;> intros <;> first | rfl | skip
  rename_i a ha
  exact h a ha

/-- A state that differs in the registers alone. -/
theorem Frame.of_v (s : State) (v : Vector Byte 16) :
    Frame { regs := [0, 1, 2, 3, 4, 5, 6, 7, 8, 9, 10, 11, 12, 13, 14, 15] } s { s with v := v } := by
  constructor <;> intros <;> first | rfl | skip
  rename_i r h
  exact absurd ((by decide : ∀ r : RegIx, r ∈ ([0, 1, 2, 3, 4, 5, 6, 7, 8, 9, 10, 11, 12, 13, 14, 15] : List RegIx)) r) h

theorem State.writeBytes_frame (s : State) (a : Nat) (vs : List Byte) (h : a + vs.length ≤ Config.memSize) :
    Frame { memLo := a, memLen := vs.length } s (s.writeBytes a vs) := by
  have e := State.writeBytes_eq vs a s
  have key : Frame { memLo := a, memLen := vs.length } s { s with mem := (s.writeBytes a vs).mem } := by
    refine Frame.of_mem (fun b hb => ?_)
    rw [← e, State.readByte_writeBytes vs a s h b, dif_neg hb]
  rwa [← e] at key

theorem loadRegs_frame (s : State) (a n : Nat) :
    Frame { regs := [0, 1, 2, 3, 4, 5, 6, 7, 8, 9, 10, 11, 12, 13, 14, 15] } s (loadRegs a n s) := by
  have key := Frame.of_v s (loadRegs a n s).v
  rwa [← loadRegs_eq a n s] at key

theorem drawSprite_frame (s : State) (x y : RegIx) (n : Nat) :
    Frame { regs := [vf], fb := true } s (drawSprite x y n s) := by
  constructor <;> intros <;> first | rfl | contradiction | skip
  rename_i r h
  exact State.getV_setV_ne s (by simpa using h) _

/-! Draw in closed form. -/

/-- The rows that Draw reads are the ones `SpriteOn` speaks of. -/
theorem rowsOn_iff_spriteOn (s : State) (x y : RegIx) (n px py : Nat) :
    RowsOn (s.getV x).toNat (s.getV y).toNat 0 (s.readBytes s.indexAddr n) px py ↔
      SpriteOn s x y n (px % 64) (py % 32) := by
  constructor
  · rintro ⟨k, hk, c, -, hc, hx, hy, hb⟩
    refine ⟨k, by simpa [State.readBytes_length] using hk, c, hc, hx.symm, ?_, ?_⟩
    · rw [← hy, Nat.zero_add]
    · rwa [State.readBytes_getElem] at hb
  · rintro ⟨r, hr, c, hc, hx, hy, hb⟩
    refine ⟨r, by simpa [State.readBytes_length] using hr, c, Nat.zero_le _, hc, hx.symm, ?_, ?_⟩
    · rw [Nat.zero_add, ← hy]
    · rwa [State.readBytes_getElem]

theorem fbPixel_eq (fb : Framebuffer) (py : Fin 32) (px : Fin 64) : fbPixel fb px.val py.val = fb[py][px] := by
  unfold fbPixel
  simp only [Nat.mod_eq_of_lt px.isLt, Nat.mod_eq_of_lt py.isLt]
  rfl

theorem drawSprite_pixel (s : State) (x y : RegIx) (n : Nat) (hn : n ≤ 32) (px py : Nat) :
    fbPixel (drawSprite x y n s).fb px py = true ↔
      ¬(fbPixel s.fb px py = true ↔ SpriteOn s x y n (px % 64) (py % 32)) := by
  rw [← rowsOn_iff_spriteOn]
  exact blitRows_pixel _ _ _ 0 (by rw [State.readBytes_length]; exact hn) _ px py

theorem drawSprite_vf (s : State) (x y : RegIx) (n : Nat) (hn : n ≤ 32) :
    ((drawSprite x y n s).getV vf = 0x01#8 ∧ ∃ px py, SpriteOn s x y n (px % 64) (py % 32) ∧ fbPixel s.fb px py = true) ∨
    ((drawSprite x y n s).getV vf = 0x00#8 ∧ ∀ px py, SpriteOn s x y n (px % 64) (py % 32) → fbPixel s.fb px py = false) := by
  have h := blitRows_hit (s.getV x).toNat (s.getV y).toNat (s.readBytes s.indexAddr n) 0
    (by rw [State.readBytes_length]; exact hn) { fb := s.fb, hit := false }
  have hv : (drawSprite x y n s).getV vf = flagByte (blitRows (s.getV x).toNat (s.getV y).toNat 0
      (s.readBytes s.indexAddr n) { fb := s.fb, hit := false }).hit := State.getV_setV_self s vf _
  rw [hv]
  cases hb : (blitRows (s.getV x).toNat (s.getV y).toNat 0 (s.readBytes s.indexAddr n) { fb := s.fb, hit := false }).hit with
  | true =>
    left
    refine ⟨rfl, ?_⟩
    rcases h.mp hb with h | ⟨px, py, h, hp⟩
    · exact absurd h Bool.false_ne_true
    · exact ⟨px, py, (rowsOn_iff_spriteOn ..).mp h, hp⟩
  | false =>
    right
    refine ⟨rfl, fun px py hs => ?_⟩
    by_contra hp
    have := h.mpr (.inr ⟨px, py, (rowsOn_iff_spriteOn ..).mpr hs, by simpa using hp⟩)
    rw [hb] at this
    exact absurd this Bool.false_ne_true

/-! Every execute phase answers a next state. -/

theorem raise_next (e : FatalError) (s : State) : raise e s = .next { s with halted := some e } := rfl

theorem withinMemory_next (base len : Nat) (effect : State → State) (s : State) :
    ∃ t, withinMemory base len effect s = .next t := by
  rcases withinMemory_cases base len effect s with ⟨-, h⟩ | ⟨-, h⟩ <;> exact ⟨_, h⟩

theorem exec_next (i : Instr) (s : State) : ∃ t, exec i s = .next t := by
  cases i with
  | ret =>
    simp only [exec, execRet]
    split <;> exact ⟨_, rfl⟩
  | call nnn =>
    simp only [exec, execCall]
    split <;> exact ⟨_, rfl⟩
  | draw x y n => exact withinMemory_next ..
  | storeBCD x => exact withinMemory_next ..
  | regDump x => exact withinMemory_next ..
  | regLoad x => exact withinMemory_next ..
  | _ => exact ⟨_, rfl⟩

/-- What the effect of an access answers, or the fatal error, has property `P` of a state against `s`. -/
theorem withinMemory_induct {P : State → Prop} {base len : Nat} {effect : State → State} {s t : State}
    (h : withinMemory base len effect s = .next t) (he : P (effect s)) (hr : ∀ e, P { s with halted := some e }) : P t := by
  rcases withinMemory_cases base len effect s with ⟨-, e⟩ | ⟨-, e⟩ <;> rw [e] at h <;> cases h
  · exact he
  · exact hr _

/-- `t` differs from `s` at most in the fields an execute phase can write: `last_tick`, the snapshots, the result, the
parameters and the model's own fields are the same. -/
def Touches (s t : State) : Prop :=
  ∃ v index pc stack dt st fb mem halted,
    t = { s with v := v, i := index, pc := pc, stack := stack, dt := dt, st := st, fb := fb, mem := mem, halted := halted }

theorem touches_skipIf (s : State) (b : Bool) : Touches s (skipIf b s) := by
  rw [skipIf_eq]; exact ⟨_, _, _, _, _, _, _, _, _, rfl⟩

theorem touches_writeBytes (s : State) (a : Nat) (vs : List Byte) : Touches s (s.writeBytes a vs) :=
  ⟨_, _, _, _, _, _, _, _, _, State.writeBytes_eq vs a s⟩

theorem touches_loadRegs (s : State) (a n : Nat) : Touches s (loadRegs a n s) :=
  ⟨_, _, _, _, _, _, _, _, _, loadRegs_eq a n s⟩

theorem touches_raise (s : State) (e : FatalError) : Touches s { s with halted := some e } :=
  ⟨_, _, _, _, _, _, _, _, _, rfl⟩

theorem exec_touches {i : Instr} {s t : State} (h : exec i s = .next t) : Touches s t := by
  cases i with
  | ret =>
    simp only [exec, execRet] at h
    split at h <;> cases h <;> exact ⟨_, _, _, _, _, _, _, _, _, rfl⟩
  | call nnn =>
    simp only [exec, execCall] at h
    split at h <;> cases h <;> exact ⟨_, _, _, _, _, _, _, _, _, rfl⟩
  | waitKey x =>
    simp only [exec, execWaitKey] at h
    cases h
    split <;> exact ⟨_, _, _, _, _, _, _, _, _, rfl⟩
  | draw x y n => exact withinMemory_induct h ⟨_, _, _, _, _, _, _, _, _, rfl⟩ (touches_raise s)
  | storeBCD x => exact withinMemory_induct h (touches_writeBytes ..) (touches_raise s)
  | regDump x => exact withinMemory_induct h (touches_writeBytes ..) (touches_raise s)
  | regLoad x => exact withinMemory_induct h (touches_loadRegs ..) (touches_raise s)
  | skipEqImm x nn => cases h; exact touches_skipIf ..
  | skipNeqImm x nn => cases h; exact touches_skipIf ..
  | skipEqReg x y => cases h; exact touches_skipIf ..
  | skipNeqReg x y => cases h; exact touches_skipIf ..
  | skipKeyPressed x => cases h; exact touches_skipIf ..
  | skipKeyNotPressed x => cases h; exact touches_skipIf ..
  | _ => cases h; exact ⟨_, _, _, _, _, _, _, _, _, rfl⟩

end Sys2Proof.Machine
end

