-- ==== Sys2Proof/Laws/PerInstr.lean ====
section
/-! SUPPORT. One statement for all instructions, proved per constructor: the word of an instruction selects the row of
30_encoding.md R74 that bears its name. -/

namespace Sys2Proof.Laws.RowSelects

/-- The well-formed instruction's word selects a row of the opcode map, and that row has its mnemonic. -/
def Statement (i : Instr) : Prop :=
  i.wellFormed = true → ∃ r ∈ opcodeMap, r.name = i.mnemonic ∧ r.selects (encode i) = true

/-! The bits of the four masks that R74 uses. -/

theorem maskN1_bit : ∀ k : Fin 16, (0xF000#16).getLsbD k.val = decide (12 ≤ k.val) := by decide
theorem maskXY_bit : ∀ k : Fin 16, (0xF00F#16).getLsbD k.val = (decide (12 ≤ k.val) || decide (k.val < 4)) := by decide
theorem maskX_bit : ∀ k : Fin 16, (0xF0FF#16).getLsbD k.val = (decide (12 ≤ k.val) || decide (k.val < 8)) := by decide

/-- Under the mask of a format a word is the word whose operand fields are 0. -/
theorem encNNN_mask (n : BitVec 4) (a : BitVec 12) : encNNN n a &&& 0xF000#16 = encNNN n 0#12 := by
  apply BitVec.eq_of_getLsbD_eq
  intro k hk
  rw [BitVec.getLsbD_and, maskN1_bit ⟨k, hk⟩, encNNN_bit, encNNN_bit]
  by_cases h : k < 12
  · have : ¬12 ≤ k := by omega
    simp [h, this]
  · have : 12 ≤ k := by omega
    simp [h, this]

theorem encXNN_maskN1 (n : BitVec 4) (x : RegIx) (b : Byte) : encXNN n x b &&& 0xF000#16 = encXNN n 0 0#8 := by
  apply BitVec.eq_of_getLsbD_eq
  intro k hk
  rw [BitVec.getLsbD_and, maskN1_bit ⟨k, hk⟩, encXNN_bit, encXNN_bit]
  by_cases h : k < 12
  · have : ¬12 ≤ k := by omega
    simp [h, this, nibbleOf]
  · have h8 : ¬k < 8 := by omega
    have : 12 ≤ k := by omega
    simp [h, h8, this]

theorem encXNN_maskX (n : BitVec 4) (x : RegIx) (b : Byte) : encXNN n x b &&& 0xF0FF#16 = encXNN n 0 b := by
  apply BitVec.eq_of_getLsbD_eq
  intro k hk
  rw [BitVec.getLsbD_and, maskX_bit ⟨k, hk⟩, encXNN_bit, encXNN_bit]
  by_cases h8 : k < 8
  · simp [h8]
  · by_cases h : k < 12
    · have : ¬12 ≤ k := by omega
      simp [h8, h, this, nibbleOf]
    · have : 12 ≤ k := by omega
      simp [h8, h, this]

theorem encXYN_maskXY (n : BitVec 4) (x y : RegIx) (f : BitVec 4) : encXYN n x y f &&& 0xF00F#16 = encXYN n 0 0 f := by
  apply BitVec.eq_of_getLsbD_eq
  intro k hk
  rw [BitVec.getLsbD_and, maskXY_bit ⟨k, hk⟩, encXYN_bit, encXYN_bit]
  by_cases h4 : k < 4
  · simp [h4]
  · by_cases h : k < 12
    · have : ¬12 ≤ k := by omega
      by_cases h8 : k < 8 <;> simp [h4, h8, h, this, nibbleOf]
    · have h8 : ¬k < 8 := by omega
      have : 12 ≤ k := by omega
      simp [h4, h8, h, this]

theorem encXYN_maskN1 (n : BitVec 4) (x y : RegIx) (f : BitVec 4) : encXYN n x y f &&& 0xF000#16 = encXYN n 0 0 0#4 :=
  encXNN_maskN1 n x (nibbleOf y ++ f)

/-- A row without exclusions, found at its place in the map, selects the word. -/
theorem of_row {i : Instr} (k : Fin 35) (m v : Word16)
    (hr : opcodeMap[k.val]? = some ⟨i.mnemonic, m, v, []⟩) (hw : encode i &&& m = v) : Statement i := by
  intro _
  refine ⟨⟨i.mnemonic, m, v, []⟩, List.mem_of_getElem? hr, rfl, ?_⟩
  simp [OpcodeRow.selects, hw]

/-! One lemma per constructor. -/

theorem clear : Statement .clear := of_row 0 0xFFFF#16 0x00E0#16 rfl rfl
theorem ret : Statement .ret := of_row 1 0xFFFF#16 0x00EE#16 rfl rfl
theorem sysCall (nnn : BitVec 12) : Statement (.sysCall nnn) := by
  intro h
  refine ⟨⟨"SysCall", 0xF000, 0x0000, [0x00E0, 0x00EE]⟩, List.mem_of_getElem? (i := 2) rfl, rfl, ?_⟩
  have hm : encode (.sysCall nnn) &&& 0xF000#16 = 0x0000#16 := (encNNN_mask 0x0#4 nnn).trans rfl
  have h0 : nnn ≠ 0x0E0#12 ∧ nnn ≠ 0x0EE#12 := by simpa [Instr.wellFormed] using h
  have h1 : encode (.sysCall nnn) ≠ 0x00E0#16 := fun e => h0.1 (by
    have := congrArg fieldNNN e; exact ((fieldNNN_encNNN 0x0#4 nnn).symm.trans this).trans (by decide))
  have h2 : encode (.sysCall nnn) ≠ 0x00EE#16 := fun e => h0.2 (by
    have := congrArg fieldNNN e; exact ((fieldNNN_encNNN 0x0#4 nnn).symm.trans this).trans (by decide))
  simp [OpcodeRow.selects, hm, h1, h2]
theorem jump (nnn : BitVec 12) : Statement (.jump nnn) := of_row 3 0xF000#16 0x1000#16 rfl ((encNNN_mask _ _).trans rfl)
theorem call (nnn : BitVec 12) : Statement (.call nnn) := of_row 4 0xF000#16 0x2000#16 rfl ((encNNN_mask _ _).trans rfl)
theorem skipEqImm (x : RegIx) (nn : Byte) : Statement (.skipEqImm x nn) := of_row 5 0xF000#16 0x3000#16 rfl ((encXNN_maskN1 _ _ _).trans rfl)
theorem skipNeqImm (x : RegIx) (nn : Byte) : Statement (.skipNeqImm x nn) := of_row 6 0xF000#16 0x4000#16 rfl ((encXNN_maskN1 _ _ _).trans rfl)
theorem skipEqReg (x : RegIx) (y : RegIx) : Statement (.skipEqReg x y) := of_row 7 0xF00F#16 0x5000#16 rfl ((encXYN_maskXY _ _ _ _).trans rfl)
theorem loadImm (x : RegIx) (nn : Byte) : Statement (.loadImm x nn) := of_row 8 0xF000#16 0x6000#16 rfl ((encXNN_maskN1 _ _ _).trans rfl)
theorem addImm (x : RegIx) (nn : Byte) : Statement (.addImm x nn) := of_row 9 0xF000#16 0x7000#16 rfl ((encXNN_maskN1 _ _ _).trans rfl)
theorem copy (x : RegIx) (y : RegIx) : Statement (.copy x y) := of_row 15 0xF00F#16 0x8000#16 rfl ((encXYN_maskXY _ _ _ _).trans rfl)
theorem or (x : RegIx) (y : RegIx) : Statement (.or x y) := of_row 16 0xF00F#16 0x8001#16 rfl ((encXYN_maskXY _ _ _ _).trans rfl)
theorem and (x : RegIx) (y : RegIx) : Statement (.and x y) := of_row 17 0xF00F#16 0x8002#16 rfl ((encXYN_maskXY _ _ _ _).trans rfl)
theorem xor (x : RegIx) (y : RegIx) : Statement (.xor x y) := of_row 18 0xF00F#16 0x8003#16 rfl ((encXYN_maskXY _ _ _ _).trans rfl)
theorem add (x : RegIx) (y : RegIx) : Statement (.add x y) := of_row 19 0xF00F#16 0x8004#16 rfl ((encXYN_maskXY _ _ _ _).trans rfl)
theorem sub (x : RegIx) (y : RegIx) : Statement (.sub x y) := of_row 20 0xF00F#16 0x8005#16 rfl ((encXYN_maskXY _ _ _ _).trans rfl)
theorem shr (x : RegIx) (y : RegIx) : Statement (.shr x y) := of_row 21 0xF00F#16 0x8006#16 rfl ((encXYN_maskXY _ _ _ _).trans rfl)
theorem subn (x : RegIx) (y : RegIx) : Statement (.subn x y) := of_row 22 0xF00F#16 0x8007#16 rfl ((encXYN_maskXY _ _ _ _).trans rfl)
theorem shl (x : RegIx) (y : RegIx) : Statement (.shl x y) := of_row 23 0xF00F#16 0x800E#16 rfl ((encXYN_maskXY _ _ _ _).trans rfl)
theorem skipNeqReg (x : RegIx) (y : RegIx) : Statement (.skipNeqReg x y) := of_row 10 0xF00F#16 0x9000#16 rfl ((encXYN_maskXY _ _ _ _).trans rfl)
theorem loadIndex (nnn : BitVec 12) : Statement (.loadIndex nnn) := of_row 11 0xF000#16 0xA000#16 rfl ((encNNN_mask _ _).trans rfl)
theorem jumpOffset (nnn : BitVec 12) : Statement (.jumpOffset nnn) := of_row 12 0xF000#16 0xB000#16 rfl ((encNNN_mask _ _).trans rfl)
theorem random (x : RegIx) (nn : Byte) : Statement (.random x nn) := of_row 13 0xF000#16 0xC000#16 rfl ((encXNN_maskN1 _ _ _).trans rfl)
theorem draw (x : RegIx) (y : RegIx) (n : Fin 16) : Statement (.draw x y n) := of_row 14 0xF000#16 0xD000#16 rfl ((encXYN_maskN1 _ _ _ _).trans rfl)
theorem skipKeyPressed (x : RegIx) : Statement (.skipKeyPressed x) := of_row 24 0xF0FF#16 0xE09E#16 rfl ((encXNN_maskX _ _ _).trans rfl)
theorem skipKeyNotPressed (x : RegIx) : Statement (.skipKeyNotPressed x) := of_row 25 0xF0FF#16 0xE0A1#16 rfl ((encXNN_maskX _ _ _).trans rfl)
theorem getDelay (x : RegIx) : Statement (.getDelay x) := of_row 26 0xF0FF#16 0xF007#16 rfl ((encXNN_maskX _ _ _).trans rfl)
theorem waitKey (x : RegIx) : Statement (.waitKey x) := of_row 27 0xF0FF#16 0xF00A#16 rfl ((encXNN_maskX _ _ _).trans rfl)
theorem setDelay (x : RegIx) : Statement (.setDelay x) := of_row 28 0xF0FF#16 0xF015#16 rfl ((encXNN_maskX _ _ _).trans rfl)
theorem setSound (x : RegIx) : Statement (.setSound x) := of_row 29 0xF0FF#16 0xF018#16 rfl ((encXNN_maskX _ _ _).trans rfl)
theorem addToIndex (x : RegIx) : Statement (.addToIndex x) := of_row 30 0xF0FF#16 0xF01E#16 rfl ((encXNN_maskX _ _ _).trans rfl)
theorem loadFontAddr (x : RegIx) : Statement (.loadFontAddr x) := of_row 31 0xF0FF#16 0xF029#16 rfl ((encXNN_maskX _ _ _).trans rfl)
theorem storeBCD (x : RegIx) : Statement (.storeBCD x) := of_row 32 0xF0FF#16 0xF033#16 rfl ((encXNN_maskX _ _ _).trans rfl)
theorem regDump (x : RegIx) : Statement (.regDump x) := of_row 33 0xF0FF#16 0xF055#16 rfl ((encXNN_maskX _ _ _).trans rfl)
theorem regLoad (x : RegIx) : Statement (.regLoad x) := of_row 34 0xF0FF#16 0xF065#16 rfl ((encXNN_maskX _ _ _).trans rfl)

end Sys2Proof.Laws.RowSelects
end

