-- ==== Sys2Proof/Laws/Step.lean ====
section
/-! SUPPORT. What a step can do, said once, and the host's placing of an instruction. -/

namespace Sys2Proof.Machine

theorem fetchFault_none {s : State} (h : s.pc.toNat ≤ Config.lastFetch) : fetchFault s = none :=
  outOfRange_none (.inr (by simp only [Config.lastFetch] at h; simp only [Config.memSize]; omega))

theorem fetchFault_some {s : State} (h : Config.lastFetch < s.pc.toNat) :
    fetchFault s = some (max s.pc.toNat Config.memSize) :=
  outOfRange_some (by decide) (by simp only [Config.lastFetch] at h; simp only [Config.memSize]; omega)

@[simp] theorem beginStep_pc (s : State) : (beginStep s).pc = s.pc := rfl
@[simp] theorem beginStep_halted (s : State) : (beginStep s).halted = s.halted := rfl
@[simp] theorem beginStep_v (s : State) : (beginStep s).v = s.v := rfl
@[simp] theorem beginStep_i (s : State) : (beginStep s).i = s.i := rfl
@[simp] theorem beginStep_stack (s : State) : (beginStep s).stack = s.stack := rfl
@[simp] theorem beginStep_fb (s : State) : (beginStep s).fb = s.fb := rfl
@[simp] theorem beginStep_mem (s : State) : (beginStep s).mem = s.mem := rfl
@[simp] theorem beginStep_cfg (s : State) : (beginStep s).cfg = s.cfg := rfl
@[simp] theorem fetchWord_beginStep (s : State) : fetchWord (beginStep s.takeInput) = s.nextWord := rfl

/-- Everything a step can do. -/
theorem step_cases (s : State) :
    (∃ e, s.halted = some e ∧ step s = .next (reportPhase false s.takeInput)) ∨
    (s.halted = none ∧ Config.lastFetch < s.pc.toNat ∧
      step s = .next (reportPhase false { beginStep s.takeInput with
        halted := some (.addressOutOfRange (max s.pc.toNat Config.memSize)) })) ∨
    (s.halted = none ∧ s.pc.toNat ≤ Config.lastFetch ∧ ∃ w, decode s.nextWord = .decodeError w ∧
      step s = .next (reportPhase false { advancePc (beginStep s.takeInput) with halted := some (.decodeError w) })) ∨
    (s.halted = none ∧ s.pc.toNat ≤ Config.lastFetch ∧ ∃ i t, decode s.nextWord = .instr i ∧
      exec i (advancePc (beginStep s.takeInput)) = .next t ∧ step s = .next (reportPhase (requestsRedraw i) t)) := by
  cases hh : s.halted with
  | some e => exact .inl ⟨e, rfl, by simp [step, hh, haltedStep]⟩
  | none =>
    right
    by_cases hp : s.pc.toNat ≤ Config.lastFetch
    · right
      have hf : fetchFault (beginStep s.takeInput) = none := fetchFault_none hp
      cases hd : decode s.nextWord with
      | decodeError w =>
        refine .inl ⟨rfl, hp, w, rfl, ?_⟩
        simp [step, hh, fetchAndRun, hf, runWord, hd, reportOutcome, raise]
      | instr i =>
        obtain ⟨t, ht⟩ := exec_next i (advancePc (beginStep s.takeInput))
        refine .inr ⟨rfl, hp, i, t, rfl, ht, ?_⟩
        simp [step, hh, fetchAndRun, hf, runWord, hd, reportOutcome, ht]
    · left
      have hf : fetchFault (beginStep s.takeInput) = some (max s.pc.toNat Config.memSize) :=
        fetchFault_some (s := beginStep s.takeInput) (by simpa using hp)
      refine ⟨rfl, by omega, ?_⟩
      simp [step, hh, fetchAndRun, hf, failFetch, reportOutcome, raise]

/-- A word is its high byte before its low byte. -/
theorem word_of_its_bytes (w : Word16) : (w.extractLsb' 8 8 ++ w.extractLsb' 0 8 : Word16) = w := by
  apply BitVec.eq_of_getLsbD_eq
  intro k hk
  simp only [BitVec.getLsbD_append, BitVec.getLsbD_extractLsb']
  by_cases h : k < 8
  · simp [h]
  · have h1 : k - 8 < 8 := by omega
    have h2 : 8 + (k - 8) = k := by omega
    simp [h, h1, h2]

/-- The host's placed instruction is the one the next step fetches, in a running machine. -/
theorem withFetchWord_spec (s : State) (w : Nat) :
    (s.withFetchWord 16 w).halted = none ∧ (s.withFetchWord 16 w).pc.toNat ≤ Config.lastFetch ∧
      (s.withFetchWord 16 w).nextWord = BitVec.ofNat 16 w := by
  have key : ∀ r : State, r.pc.toNat ≤ Config.lastFetch → r.halted = none →
      (r.writeBytes r.pc.toNat (tableBytes 16 w)).halted = none ∧
      (r.writeBytes r.pc.toNat (tableBytes 16 w)).pc.toNat ≤ Config.lastFetch ∧
      (r.writeBytes r.pc.toNat (tableBytes 16 w)).nextWord = BitVec.ofNat 16 w := by
    intro r hp hh
    have e := State.writeBytes_eq (tableBytes 16 w) r.pc.toNat r
    have hl : r.pc.toNat + (tableBytes 16 w).length ≤ Config.memSize := by
      simp only [tableBytes, List.length_cons, List.length_nil, Config.memSize, Config.lastFetch] at hp ⊢; omega
    have hpc : (r.writeBytes r.pc.toNat (tableBytes 16 w)).pc = r.pc := by rw [e]
    refine ⟨by rw [e]; exact hh, by rw [hpc]; exact hp, ?_⟩
    unfold State.nextWord
    rw [hpc, State.readByte_writeBytes _ _ _ hl, State.readByte_writeBytes _ _ _ hl]
    have hl2 : (tableBytes 16 w).length = 2 := rfl
    rw [dif_pos (by omega), dif_pos (by omega)]
    simp only [Nat.sub_self, Nat.add_sub_cancel_left]
    have hw : BitVec.ofNat 16 (w % 2 ^ 16) = BitVec.ofNat 16 w := by apply BitVec.eq_of_toNat_eq; simp
    show (BitVec.ofNat 16 (w % 2 ^ 16)).extractLsb' 8 8 ++ (BitVec.ofNat 16 (w % 2 ^ 16)).extractLsb' 0 8 = BitVec.ofNat 16 w
    rw [hw]
    exact word_of_its_bytes _
  unfold State.withFetchWord placeWord
  apply key _ _ rfl
  simp only
  split
  · decide
  · rename_i h
    by_contra hc
    exact h (by simp [fetchFault_some (by omega : Config.lastFetch < s.pc.toNat)])

end Sys2Proof.Machine
end

