-- ==== Sys2Proof/Tests/Slice0.lean ====
section
/-! SUPPORT. The model's own tests: the well-formedness smoke, one written-out word for each constructor, vectors of
95_test_vectors.md on single steps, and a witness for the hypotheses of each statement. -/

namespace Sys2Proof.Tests

open Sys2Proof Sys2Proof.Machine

/-! ## Well-formedness: the two words that R73 takes out of 0nnn are no SysCall. -/

theorem test_wellFormed_refuses_sysCall_0E0 : (Instr.sysCall 0x0E0#12).wellFormed = false := by decide
theorem test_wellFormed_refuses_sysCall_0EE : (Instr.sysCall 0x0EE#12).wellFormed = false := by decide
theorem test_wellFormed_accepts_sysCall_0E1 : (Instr.sysCall 0x0E1#12).wellFormed = true := by decide

/-! ## Decoding: for each constructor a word written out from 30_encoding.md R71, R74 (95_test_vectors.md 2.1 and the
word columns of 2.3 to 2.9). Operands differ from each other, so that a swapped field shows. -/

theorem test_decode_clear : decode 0x00E0#16 = .instr .clear := by decide
theorem test_decode_ret : decode 0x00EE#16 = .instr .ret := by decide
theorem test_decode_sysCall : decode 0x0123#16 = .instr (.sysCall 0x123#12) := by decide
theorem test_decode_jump : decode 0x1FFF#16 = .instr (.jump 0xFFF#12) := by decide
theorem test_decode_call : decode 0x220A#16 = .instr (.call 0x20A#12) := by decide
theorem test_decode_skipEqImm : decode 0x3142#16 = .instr (.skipEqImm 1 0x42#8) := by decide
theorem test_decode_skipNeqImm : decode 0x4142#16 = .instr (.skipNeqImm 1 0x42#8) := by decide
theorem test_decode_skipEqReg : decode 0x5120#16 = .instr (.skipEqReg 1 2) := by decide
theorem test_decode_loadImm : decode 0x6F80#16 = .instr (.loadImm 15 0x80#8) := by decide
theorem test_decode_addImm : decode 0x70FF#16 = .instr (.addImm 0 0xFF#8) := by decide
theorem test_decode_copy : decode 0x8120#16 = .instr (.copy 1 2) := by decide
theorem test_decode_or : decode 0x8A51#16 = .instr (.or 10 5) := by decide
theorem test_decode_and : decode 0x8A52#16 = .instr (.and 10 5) := by decide
theorem test_decode_xor : decode 0x8A53#16 = .instr (.xor 10 5) := by decide
theorem test_decode_add : decode 0x80F4#16 = .instr (.add 0 15) := by decide
theorem test_decode_sub : decode 0x8F15#16 = .instr (.sub 15 1) := by decide
theorem test_decode_shr : decode 0x8126#16 = .instr (.shr 1 2) := by decide
theorem test_decode_subn : decode 0x8F17#16 = .instr (.subn 15 1) := by decide
theorem test_decode_shl : decode 0x812E#16 = .instr (.shl 1 2) := by decide
theorem test_decode_skipNeqReg : decode 0x9120#16 = .instr (.skipNeqReg 1 2) := by decide
theorem test_decode_loadIndex : decode 0xAFFE#16 = .instr (.loadIndex 0xFFE#12) := by decide
theorem test_decode_jumpOffset : decode 0xB2FF#16 = .instr (.jumpOffset 0x2FF#12) := by decide
theorem test_decode_random : decode 0xC30F#16 = .instr (.random 3 0x0F#8) := by decide
theorem test_decode_draw : decode 0xD5A7#16 = .instr (.draw 5 10 7) := by decide
theorem test_decode_skipKeyPressed : decode 0xE59E#16 = .instr (.skipKeyPressed 5) := by decide
theorem test_decode_skipKeyNotPressed : decode 0xE0A1#16 = .instr (.skipKeyNotPressed 0) := by decide
theorem test_decode_getDelay : decode 0xF107#16 = .instr (.getDelay 1) := by decide
theorem test_decode_waitKey : decode 0xF30A#16 = .instr (.waitKey 3) := by decide
theorem test_decode_setDelay : decode 0xF215#16 = .instr (.setDelay 2) := by decide
theorem test_decode_setSound : decode 0xF218#16 = .instr (.setSound 2) := by decide
theorem test_decode_addToIndex : decode 0xFA1E#16 = .instr (.addToIndex 10) := by decide
theorem test_decode_loadFontAddr : decode 0xFC29#16 = .instr (.loadFontAddr 12) := by decide
theorem test_decode_storeBCD : decode 0xF133#16 = .instr (.storeBCD 1) := by decide
theorem test_decode_regDump : decode 0xFF55#16 = .instr (.regDump 15) := by decide
theorem test_decode_regLoad : decode 0xF265#16 = .instr (.regLoad 2) := by decide

/-- One word of each illegal class of R75, and the three that differ from a legal word in the function code alone. -/
theorem test_decode_illegal :
    [0x5121#16, 0x9AB1#16, 0x8128#16, 0x812F#16, 0xE19F#16, 0xF000#16, 0xF175#16, 0xFFFF#16].map decode =
      [.decodeError 0x5121#16, .decodeError 0x9AB1#16, .decodeError 0x8128#16, .decodeError 0x812F#16,
        .decodeError 0xE19F#16, .decodeError 0xF000#16, .decodeError 0xF175#16, .decodeError 0xFFFF#16] := by decide

/-- 20_memory.md R53: the first byte is the high byte; a lone byte is no word. -/
theorem test_decodeBytes : decodeBytes [0xD5#8, 0xA7#8, 0x99#8] = .instr (.draw 5 10 7) [0x99#8] ∧
    decodeBytes [0xD5#8] = .tooShort ∧ encodeBytes (.draw 5 10 7) = [0xD5#8, 0xA7#8] := by decide

theorem test_decodeTableWord : decodeTableWord 16 0xD5A7 = some (.draw 5 10 7) ∧ decodeTableWord 16 0xFFFF = none := by decide

/-! ## Single steps: the vectors of 95_test_vectors.md, by their ids. TICK_PERIOD is 1000, as there. -/

/-- The parameters of the vectors. -/
def params : Config.Params where
  tickPeriod := 1000
  stackDepth := none
  font := Config.fontDefault
  fontDigitModulus := 10

/-- The same with a finite STACK_DEPTH. -/
def depthOne : Config.Params := { params with stackDepth := some 1, stackDepth_pos := by decide }
def depthTwo : Config.Params := { params with stackDepth := some 2, stackDepth_pos := by decide }

/-- `Step(keys, now, rnd)` with the first key drawn. -/
def call (keys : Word16) (now : Nat) (rnd : Byte) : Config.StepInput := { keys := keys, now := now, rnd := rnd, pick := 0 }

/-- The reset state with the word at 0x200 and the pending call `inp`. -/
def withCall (inp : Config.StepInput) (w : Nat) : State :=
  { State.resetAt 0 params with inputs := [inp] }.withFetchWord 16 w

/-- The same with `Step(0, 0, 0)`. -/
def at200 (w : Nat) : State := withCall (call 0x0000#16 0 0x00#8) w

/-- `p` holds of the state after one step. -/
def after (s : State) (p : State → Bool) : Bool :=
  match step s with
  | .next t => p t
  | .fault _ => false
  | .refused _ => false

/-- The columns of row `py` that are on. -/
def rowOn (s : State) (py : Nat) : List Nat := (List.range 64).filter (fun px => fbPixel s.fb px py)

theorem test_T_RET_2 : after (at200 0x00EE |>.push 0x206#16 |>.push 0x20C#16) (fun t => t.pc == 0x20C#16 && t.stack == [0x206#16] && t.result == some (.ok false false)) = true := by decide
theorem test_T_RET_3 : after (at200 0x00EE) (fun t => t.result == some (.fatal .stackUnderflow) && t.halted == some .stackUnderflow && t.pc == 0x202#16 && t.sp == 0) = true := by decide
theorem test_T_SYS_3 : after ({ at200 0x00E1 with fb := fbFlip (at200 0).fb 0 0 }) (fun t => t.pc == 0x202#16 && rowOn t 0 == [0] && t.result == some (.ok false false)) = true := by decide
theorem test_T_JMP_2 : after (at200 0x1203) (fun t => t.pc == 0x203#16) = true := by decide
theorem test_T_JMP_3 : after (at200 0x1200) (fun t => t.pc == 0x200#16 && t.stack == []) = true := by decide
theorem test_T_CALL_2 : after (at200 0x2300 |>.push 0x206#16) (fun t => t.stack == [0x202#16, 0x206#16] && t.pc == 0x300#16) = true := by decide
theorem test_T_CALL_3 : after ({ (at200 0x2300 |>.push 0x206#16 |>.push 0x20C#16) with cfg := depthTwo }) (fun t => t.result == some (.fatal .stackOverflow) && t.halted == some .stackOverflow && t.stack == [0x20C#16, 0x206#16] && t.pc == 0x202#16) = true := by decide
theorem test_T_JOF_2 : after (at200 0xBFFF |>.setV 0 0xFF#8) (fun t => t.pc == 0x10FE#16) = true := by decide
theorem test_T_JOF_3 : after (at200 0xB2FF |>.setV 0 0x01#8 |>.setV 2 0x80#8) (fun t => t.pc == 0x300#16) = true := by decide
theorem test_T_SE_1 : after (at200 0x3142 |>.setV 1 0x42#8) (fun t => t.pc == 0x204#16) = true := by decide
theorem test_T_SE_2 : after (at200 0x3142 |>.setV 1 0x43#8) (fun t => t.pc == 0x202#16) = true := by decide
theorem test_T_SNE_1 : after (at200 0x4142 |>.setV 1 0x42#8) (fun t => t.pc == 0x202#16) = true := by decide
theorem test_T_SNE_2 : after (at200 0x4142 |>.setV 1 0x43#8) (fun t => t.pc == 0x204#16) = true := by decide
theorem test_T_SER_1 : after (at200 0x5120 |>.setV 1 0x09#8 |>.setV 2 0x09#8) (fun t => t.pc == 0x204#16) = true := by decide
theorem test_T_SER_2 : after (at200 0x5120 |>.setV 1 0x09#8 |>.setV 2 0x08#8) (fun t => t.pc == 0x202#16) = true := by decide
theorem test_T_SNR_1 : after (at200 0x9120 |>.setV 1 0x09#8 |>.setV 2 0x09#8) (fun t => t.pc == 0x202#16) = true := by decide
theorem test_T_SNR_2 : after (at200 0x9120 |>.setV 1 0x09#8 |>.setV 2 0x08#8) (fun t => t.pc == 0x204#16) = true := by decide
theorem test_T_LDI_2 : after (at200 0x6F80) (fun t => t.getV 15 == 0x80#8 && t.getV 0 == 0x00#8 && t.pc == 0x202#16) = true := by decide
theorem test_T_ADI_1 : after (at200 0x70FF |>.setV 0 0x01#8 |>.setV 15 0x5A#8) (fun t => t.getV 0 == 0x00#8 && t.getV 15 == 0x5A#8) = true := by decide
theorem test_T_ADI_3 : after (at200 0x7F02 |>.setV 15 0xFF#8) (fun t => t.getV 15 == 0x01#8) = true := by decide
theorem test_T_CPY_1 : after (at200 0x8120 |>.setV 2 0x3C#8) (fun t => t.getV 1 == 0x3C#8 && t.getV 2 == 0x3C#8) = true := by decide
theorem test_T_OR_1 : after (at200 0x8011 |>.setV 0 0xF0#8 |>.setV 1 0x0F#8 |>.setV 15 0x5A#8) (fun t => t.getV 0 == 0xFF#8 && t.getV 15 == 0x5A#8) = true := by decide
theorem test_T_AND_1 : after (at200 0x8012 |>.setV 0 0xF0#8 |>.setV 1 0x3C#8 |>.setV 15 0x5A#8) (fun t => t.getV 0 == 0x30#8 && t.getV 15 == 0x5A#8) = true := by decide
theorem test_T_XOR_1 : after (at200 0x8013 |>.setV 0 0xFF#8 |>.setV 1 0x0F#8 |>.setV 15 0x5A#8) (fun t => t.getV 0 == 0xF0#8 && t.getV 15 == 0x5A#8) = true := by decide
theorem test_T_ADD_5 : after (at200 0x8F14 |>.setV 15 0xF0#8 |>.setV 1 0x20#8) (fun t => t.getV 15 == 0x10#8 && t.getV 1 == 0x20#8) = true := by decide
theorem test_T_ADD_6 : after (at200 0x80F4 |>.setV 0 0xFF#8 |>.setV 15 0x01#8) (fun t => t.getV 0 == 0x00#8 && t.getV 15 == 0x01#8) = true := by decide
theorem test_T_SUB_2 : after (at200 0x8015 |>.setV 0 0x03#8 |>.setV 1 0x0A#8) (fun t => t.getV 0 == 0xF9#8 && t.getV 15 == 0x00#8) = true := by decide
theorem test_T_SUB_3 : after (at200 0x8015 |>.setV 0 0x07#8 |>.setV 1 0x07#8) (fun t => t.getV 0 == 0x00#8 && t.getV 15 == 0x01#8) = true := by decide
theorem test_T_SUBN_1 : after (at200 0x8017 |>.setV 0 0x03#8 |>.setV 1 0x0A#8) (fun t => t.getV 0 == 0x07#8 && t.getV 15 == 0x01#8) = true := by decide
theorem test_T_SUBN_4 : after (at200 0x8F17 |>.setV 15 0x02#8 |>.setV 1 0x01#8) (fun t => t.getV 15 == 0xFF#8) = true := by decide
theorem test_T_SHR_1 : after (at200 0x8106 |>.setV 1 0x03#8) (fun t => t.getV 1 == 0x01#8 && t.getV 15 == 0x01#8) = true := by decide
theorem test_T_SHR_3 : after (at200 0x8126 |>.setV 1 0x04#8 |>.setV 2 0xFF#8) (fun t => t.getV 1 == 0x02#8 && t.getV 15 == 0x00#8 && t.getV 2 == 0xFF#8) = true := by decide
theorem test_T_SHL_1 : after (at200 0x800E |>.setV 0 0x81#8) (fun t => t.getV 0 == 0x02#8 && t.getV 15 == 0x01#8) = true := by decide
theorem test_T_SHL_4 : after (at200 0x8F0E |>.setV 15 0xC0#8) (fun t => t.getV 15 == 0x80#8) = true := by decide
theorem test_T_RND_1 : after (withCall (call 0x0000#16 0 0xA7#8) 0xC30F) (fun t => t.getV 3 == 0x07#8) = true := by decide
theorem test_T_LDX_2 : after (at200 0xAFFF) (fun t => t.i == 0x0FFF#16 && t.pc == 0x202#16) = true := by decide
theorem test_T_ADX_1 : after (at200 0xF21E |>.setI 0x0FF0#16 |>.setV 2 0x20#8) (fun t => t.i == 0x1010#16 && t.result == some (.ok false false)) = true := by decide
theorem test_T_ADX_3 : after (at200 0xF01E |>.setI 0xFFFF#16 |>.setV 0 0x02#8 |>.setV 15 0x5A#8) (fun t => t.i == 0x0001#16 && t.getV 15 == 0x5A#8) = true := by decide
theorem test_T_FNT_1 : after (at200 0xF029 |>.setV 0 0x07#8 |>.setI 0x777#16) (fun t => t.i == 0x0023#16) = true := by decide
theorem test_T_FNT_7 : after (at200 0xF029 |>.setV 0 0xFF#8) (fun t => t.i == 0x0019#16) = true := by decide
theorem test_T_BCD_4 : after (at200 0xF033 |>.setV 0 0xFF#8 |>.setI 0xFFD#16) (fun t => t.readBytes 0xFFC 4 == [0x00#8, 0x02#8, 0x05#8, 0x05#8]) = true := by decide
theorem test_T_BCD_5 : after (at200 0xF033 |>.setV 0 0xFF#8 |>.setI 0xFFE#16) (fun t => t.result == some (.fatal (.addressOutOfRange 0x1000)) && t.halted == some (.addressOutOfRange 0x1000) && t.readBytes 0xFFE 2 == [0x00#8, 0x00#8] && t.pc == 0x202#16) = true := by decide
theorem test_T_DMP_1 : after (at200 0xF255 |>.setV 0 0x11#8 |>.setV 1 0x22#8 |>.setV 2 0x33#8 |>.setV 3 0x44#8 |>.setI 0x400#16) (fun t => t.readBytes 0x400 4 == [0x11#8, 0x22#8, 0x33#8, 0x00#8] && t.i == 0x400#16) = true := by decide
theorem test_T_DMP_3 : after (at200 0xF155 |>.setV 0 0xAB#8 |>.setV 1 0xCD#8 |>.setI 0xFFF#16) (fun t => t.result == some (.fatal (.addressOutOfRange 0x1000)) && t.halted == some (.addressOutOfRange 0x1000) && t.readByte 0xFFF == 0x00#8) = true := by decide
theorem test_T_LOD_1 : after (at200 0xF265 |>.writeBytes 0x300 [0x02#8, 0x03#8, 0x04#8, 0x05#8] |>.setI 0x300#16 |>.setV 3 0x99#8) (fun t => t.getV 0 == 0x02#8 && t.getV 2 == 0x04#8 && t.getV 3 == 0x99#8 && t.i == 0x300#16) = true := by decide
theorem test_T_LOD_3 : after (at200 0xFF65 |>.setI 0x041#16) (fun t => t.getV 0 == 0xE0#8 && t.getV 4 == 0xE0#8 && t.getV 14 == 0x80#8 && t.getV 15 == 0x00#8) = true := by decide
theorem test_T_CLR_1 : after ({ (at200 0x00E0 |>.setV 15 0x01#8) with fb := fbFlip (fbFlip (at200 0).fb 0 0) 63 31 }) (fun t => rowOn t 0 == [] && rowOn t 31 == [] && t.getV 15 == 0x01#8 && t.result == some (.ok true false)) = true := by decide
theorem test_T_DRW_3 : after (at200 0xD011 |>.setV 0 62#8 |>.setV 1 31#8 |>.setI 0x300#16 |>.writeBytes 0x300 [0xF0#8]) (fun t => rowOn t 31 == [0, 1, 62, 63] && rowOn t 0 == [] && t.getV 15 == 0x00#8 && t.result == some (.ok true false)) = true := by decide
theorem test_T_DRW_6 : after ({ (at200 0xD011 |>.setI 0x300#16 |>.writeBytes 0x300 [0xC0#8]) with fb := fbFlip (at200 0).fb 1 0 }) (fun t => rowOn t 0 == [0] && t.getV 15 == 0x01#8) = true := by decide
theorem test_T_KEY_3 : after (withCall (call 0xFFFF#16 0 0x00#8) 0xE09E |>.setV 0 0x15#8) (fun t => t.pc == 0x202#16) = true := by decide
theorem test_T_KEY_5 : after (withCall (call 0x8000#16 0 0x00#8) 0xE09E |>.setV 0 0x0F#8) (fun t => t.pc == 0x204#16) = true := by decide
theorem test_T_KEY_6 : after (withCall (call 0x0020#16 0 0x00#8) 0xE0A1 |>.setV 0 0x05#8) (fun t => t.pc == 0x202#16) = true := by decide
theorem test_T_KEY_7 : after (withCall (call 0xFFFF#16 0 0x00#8) 0xE0A1 |>.setV 0 0xFF#8) (fun t => t.pc == 0x204#16) = true := by decide
theorem test_T_WK_2 : after ({ withCall (call 0x0080#16 0 0x00#8) 0xF30A with keysCur := 0x0080#16 }) (fun t => t.pc == 0x200#16 && t.getV 3 == 0x00#8 && t.result == some (.ok false false)) = true := by decide
theorem test_T_WK_4 : after ({ withCall (call 0x0082#16 0 0x00#8) 0xF30A with keysCur := 0x0080#16 }) (fun t => t.pc == 0x202#16 && t.getV 3 == 0x01#8 && t.keysPrev == 0x0080#16 && t.keysCur == 0x0082#16) = true := by decide
theorem test_T_GD_2 : after ({ withCall (call 0x0000#16 2500 0x00#8) 0xF107 with dt := 5#8 }) (fun t => t.getV 1 == 0x03#8 && t.dt == 3#8 && t.lastTick == 2000) = true := by decide
theorem test_T_SD_2 : after ({ (withCall (call 0x0000#16 1000 0x00#8) 0xF015 |>.setV 0 0x07#8) with dt := 200#8 }) (fun t => t.dt == 7#8 && t.lastTick == 1000) = true := by decide
theorem test_T_SS_1 : after (at200 0xF218 |>.setV 2 0x1E#8) (fun t => t.st == 0x1E#8 && t.result == some (.ok false true)) = true := by decide

/-! The step frame, the timers, fatal errors. -/

theorem test_T_FCH_3 : after ((at200 0 |>.setPc 0x10FE#16)) (fun t => t.result == some (.fatal (.addressOutOfRange 0x10FE)) && t.halted == some (.addressOutOfRange 0x10FE) && t.pc == 0x10FE#16) = true := by decide
theorem test_T_FCH_4 : after ((at200 0 |>.setPc 0xFFE#16 |>.writeBytes 0xFFE [0x60#8, 0xAB#8])) (fun t => t.result == some (.ok false false) && t.getV 0 == 0xAB#8 && t.pc == 0x1000#16) = true := by decide
theorem test_T_FCH_5 : after ((at200 0 |>.setPc 0x203#16 |>.writeBytes 0x203 [0x61#8, 0x07#8])) (fun t => t.getV 1 == 0x07#8 && t.pc == 0x205#16) = true := by decide
theorem test_T_FCH_7 : after ({ withCall (call 0x0000#16 1000 0x00#8) 0 with pc := 0xFFF#16, dt := 3#8 }) (fun t => t.result == some (.fatal (.addressOutOfRange 0x1000)) && t.halted == some (.addressOutOfRange 0x1000) && t.pc == 0xFFF#16 && t.dt == 2#8 && t.lastTick == 1000) = true := by decide
theorem test_T_HLT_1 : after ({ withCall (call 0xFFFF#16 99000 0x07#8) 0x6001 with halted := some (.addressOutOfRange 0x1000), dt := 9#8 }) (fun t => t.result == some (.fatal (.addressOutOfRange 0x1000)) && t.halted == some (.addressOutOfRange 0x1000) && t.pc == 0x200#16 && t.getV 0 == 0x00#8 && t.dt == 9#8 && t.lastTick == 0 && t.keysCur == 0x0000#16) = true := by decide
theorem test_T_TMR_1 : after ({ withCall (call 0x0000#16 999 0x00#8) 0 with dt := 5#8, st := 1#8 }) (fun t => t.dt == 5#8 && t.st == 1#8 && t.lastTick == 0 && t.result == some (.ok false true)) = true := by decide
theorem test_T_TMR_3 : after ({ withCall (call 0x0000#16 2500 0x00#8) 0 with dt := 5#8, st := 1#8 }) (fun t => t.dt == 3#8 && t.st == 0#8 && t.lastTick == 2000 && t.result == some (.ok false false)) = true := by decide
theorem test_T_TMR_5 : after ({ withCall (call 0x0000#16 2000 0x00#8) 0 with dt := 2#8, lastTick := 3000 }) (fun t => t.dt == 2#8 && t.lastTick == 3000) = true := by decide
theorem test_T_TMR_6 : after ({ withCall (call 0x0000#16 10000 0x00#8) 0 with dt := 2#8, lastTick := 3000 }) (fun t => t.dt == 0#8 && t.lastTick == 10000) = true := by decide
theorem test_T_ERR_2 : after ({ withCall (call 0x0000#16 1000 0x00#8) 0x5121 with dt := 9#8 }) (fun t => t.result == some (.fatal (.decodeError 0x5121#16)) && t.halted == some (.decodeError 0x5121#16) && t.pc == 0x202#16 && t.dt == 8#8) = true := by decide

/-- 60_exceptions.md R180: the codes. -/
theorem test_error_codes : [FatalError.decodeError 0x5121#16, .stackUnderflow, .addressOutOfRange 0x1000, .stackOverflow].map
    FatalError.code = [1, 2, 3, 4] := by decide

/-- A store of what the address holds after reset removes its cell (log 16). -/
theorem test_memory_canonical : ((at200 0 |>.writeByte 0x300 0x01#8).writeByte 0x300 0x00#8).mem = [] ∧
    (at200 0 |>.writeByte 0x300 0x01#8 |>.writeByte 0x000 0x00#8).mem = [(0x000, 0x00#8), (0x300, 0x01#8)] := by decide

/-- R212 with D24: a load after the first step is refused. -/
theorem test_load_refused : { State.resetAt 0 params with launch := .stepping }.hostLoad [] =
    .refused .loadOutsideDomain := by rfl

/-! ## Witnesses: for each statement with hypotheses, states and operands that meet them, each clause at a boundary. -/

/-- Two legal SysCall encodings next to the excluded words, and a legal word. -/
theorem witness_encoding : (Instr.sysCall 0x0E1#12).wellFormed = true ∧ (Instr.sysCall 0x0ED#12).wellFormed = true ∧
    decode (encode (.sysCall 0x0E1#12)) = .instr (.sysCall 0x0E1#12) := by decide

/-- DecoderFollowsTheOpcodeMap: a SysCall word beside 00E0; a word that a row selects; one that none does; the overlap of
00E0 with 0nnn. -/
theorem witness_DecoderFollowsTheOpcodeMap :
    ((0x00E1#16).extractLsb' 12 4 = 0x0#4 ∧ 0x00E1#16 ≠ 0x00E0#16 ∧ 0x00E1#16 ≠ 0x00EE#16) ∧
    (∃ r ∈ opcodeMap, r.selects 0x00E0#16 = true) ∧ (∀ r ∈ opcodeMap, r.selects 0x5121#16 = false) ∧
    (∃ r ∈ opcodeMap, ∃ q ∈ opcodeMap, r ≠ q ∧ 0x00E0#16 &&& r.mask = r.value ∧ 0x00E0#16 &&& q.mask = q.value) ∧
    (at200 0x5121).halted = none ∧ (at200 0x5121).pc.toNat ≤ 4094 ∧ (at200 0x5121).nextWord = 0x5121#16 := by
  decide

/-- StepRunsTheDecodedInstruction, PcAfterAStep, ReportOfACompletedStep, SnapshotsRotateInEveryRunningStep,
EveryRunningStepChargesWholeTicks: the first and the last address of a fetch. -/
theorem witness_fetch :
    ((at200 0x6012).halted = none ∧ (at200 0x6012).pc.toNat ≤ 4094 ∧
      decode (at200 0x6012).nextWord = .instr (.loadImm 0 0x12#8)) ∧
    (((at200 0 |>.setPc 0xFFE#16).writeBytes 0xFFE [0x31#8, 0x00#8]).halted = none ∧
      ((at200 0 |>.setPc 0xFFE#16).writeBytes 0xFFE [0x31#8, 0x00#8]).pc.toNat ≤ 4094 ∧
      decode ((at200 0 |>.setPc 0xFFE#16).writeBytes 0xFFE [0x31#8, 0x00#8]).nextWord = .instr (.skipEqImm 1 0x00#8)) := by
  decide

/-- JumpSetsPc: the target whose next fetch is fatal, in a running machine. -/
theorem witness_JumpSetsPc : decode 0x1FFF#16 = .instr (.jump 0xFFF#12) ∧ (at200 0x1FFF).halted = none := ⟨by decide, rfl⟩

/-- PcAfterAStep: its three clauses. -/
theorem witness_PcAfterAStep : (Instr.loadImm 0 0x12#8).sequential = true ∧ (Instr.skipEqImm 1 0x00#8).isSkip = true ∧
    decode (at200 0xF30A).nextWord = .instr (.waitKey 3) := by decide

/-- ReportOfACompletedStep: Clear in a machine whose sound timer runs reports both. -/
theorem witness_ReportOfACompletedStep : decode (at200 0x00E0).nextWord = .instr .clear ∧
    after { at200 0x00E0 with st := 2#8 } (fun t => t.halted == none && t.result == some (.ok true true)) = true := by
  decide

/-- LessThanOneTickStaysUncharged: the clock stands at `last_tick`, and one unit before the next tick. -/
theorem witness_LessThanOneTickStaysUncharged : (at200 0).halted = none ∧ (at200 0).lastTick ≤ (at200 0).nextInput.now ∧
    (withCall (call 0x0000#16 999 0x00#8) 0).lastTick ≤ (withCall (call 0x0000#16 999 0x00#8) 0).nextInput.now := by
  decide

/-- EveryRunningStepChargesWholeTicks: the two steps in which the instruction overwrites the timer, and steps in which
none does: another instruction, each other's, and no fetch (the lowest `pc` at which it is not valid). -/
theorem witness_EveryRunningStepChargesWholeTicks :
    ((at200 0xF215).pc.toNat ≤ 4094 ∧ decode (at200 0xF215).nextWord = .instr (.setDelay 2)) ∧
    ((at200 0xF218).pc.toNat ≤ 4094 ∧ decode (at200 0xF218).nextWord = .instr (.setSound 2)) ∧
    (∀ x, decode (at200 0xF218).nextWord ≠ .instr (.setDelay x)) ∧
    (∀ x, decode (at200 0xF215).nextWord ≠ .instr (.setSound x)) ∧
    (at200 0 |>.setPc 0x0FFF#16).halted = none ∧ 4094 < (at200 0 |>.setPc 0x0FFF#16).pc.toNat := by decide

/-- FetchPastTheEndIsFatal: `pc` at 4095 and at the largest value that a run reaches. -/
theorem witness_FetchPastTheEndIsFatal : (at200 0 |>.setPc 0x0FFF#16).halted = none ∧
    4094 < (at200 0 |>.setPc 0x0FFF#16).pc.toNat ∧ 4094 < (at200 0 |>.setPc 0x10FE#16).pc.toNat := by decide

/-- IllegalWordIsADecodeError, DecodeErrorLeavesTheRest. -/
theorem witness_IllegalWordIsADecodeError : (at200 0xFFFF).halted = none ∧ (at200 0xFFFF).pc.toNat ≤ 4094 ∧
    decode (at200 0xFFFF).nextWord = .decodeError (at200 0xFFFF).nextWord := by decide

/-- AFailingInstructionWritesNothing: an instruction that fails in a running machine. -/
theorem witness_AFailingInstructionWritesNothing : (at200 0).halted = none ∧
    exec .ret (at200 0) = .next { at200 0 with halted := some .stackUnderflow } := ⟨rfl, rfl⟩

/-- A machine with parameters `cfg`, the word 6012 at 0x200 and one stack entry. -/
def oneEntry (cfg : Config.Params) : State :=
  { State.resetAt 0 cfg with stack := [0x206#16], mem := [(0x200, 0x60#8), (0x201, 0x12#8)] }

/-- FatalErrorsOfTheExecutePhase: each disjunct, at the lowest value at which it holds. -/
theorem witness_FatalErrorsOfTheExecutePhase : (at200 0).halted = none ∧ (at200 0).stack = [] ∧
    (oneEntry depthOne).cfg.stackDepth = some 1 ∧ 1 ≤ (oneEntry depthOne).stack.length ∧
    0xFFF < (at200 0 |>.setI 0x1000#16).i.toNat + 1 - 1 ∧ 0xFFF < (at200 0 |>.setI 0x0FFE#16).i.toNat + 2 ∧
    0xFFF < (at200 0 |>.setI 0x0FFF#16).i.toNat + 1 := by decide

/-- AHaltedMachineStaysAsItIs. -/
theorem witness_AHaltedMachineStaysAsItIs :
    ({ at200 0 with halted := some .stackUnderflow } : State).halted = some .stackUnderflow := rfl

/-- ReturnPopsOrUnderflows: a stack whose newest entry is the lowest address that cannot be fetched; the empty stack. -/
theorem witness_ReturnPopsOrUnderflows : (at200 0 |>.push 0x0FFF#16).stack = 0x0FFF#16 :: [] ∧ (at200 0).halted = none ∧
    4094 < (0x0FFF#16).toNat ∧ (at200 0).stack = [] := ⟨rfl, rfl, by decide, rfl⟩

/-- SysCallDoesNothing: an operand beside each excluded one. -/
theorem witness_SysCallDoesNothing : (0x0E1#12 ≠ 0x0E0#12 ∧ 0x0E1#12 ≠ 0x0EE#12) ∧
    (0x0EF#12 ≠ 0x0E0#12 ∧ 0x0EF#12 ≠ 0x0EE#12) := by decide

/-- CallPushesAndJumpsOrOverflows: the infinite stack, a finite one with one place left, a full one. -/
theorem witness_CallPushesAndJumpsOrOverflows :
    (∀ depth, (oneEntry params).cfg.stackDepth = some depth → (oneEntry params).stack.length < depth) ∧
    (∀ depth, (oneEntry depthTwo).cfg.stackDepth = some depth → (oneEntry depthTwo).stack.length < depth) ∧
    (oneEntry depthOne).cfg.stackDepth = some 1 ∧ 1 ≤ (oneEntry depthOne).stack.length :=
  by
  refine ⟨fun depth h => ?_, fun depth h => ?_, rfl, by decide⟩
  · exact absurd (h : (none : Option Nat) = some depth) nofun
  · obtain rfl : 2 = depth := Option.some.inj h
    decide

/-- SkipsOnARegister: a function code other than 0. -/
theorem witness_SkipsOnARegister : 0x1#4 ≠ 0x0#4 := by decide

/-- AddWritesSumAndCarry, SubtractionsWriteDifferenceAndNotBorrow, ShiftsWriteTheBitShiftedOut: a register other than
VF. -/
theorem witness_flag_register : (14 : RegIx) ≠ 15 := by decide

/-- RandomMasksTheInputByte: a state whose step was given 0xA7. -/
theorem witness_RandomMasksTheInputByte : (withCall (call 0x0000#16 0 0xA7#8) 0).takeInput.input.rnd = 0xA7#8 := rfl

/-- StoreBCDStoresThreeDigits: the last place where it stores, the first where it fails. -/
theorem witness_StoreBCDStoresThreeDigits : (at200 0 |>.setI 0xFFD#16).indexAddr + 2 ≤ 0xFFF ∧
    0xFFF < (at200 0 |>.setI 0xFFE#16).indexAddr + 2 := by decide

/-- RegDumpStoresTheRange, RegLoadLoadsTheRange: the whole file at its last place, V0 alone at its last place, and one
address further on. -/
theorem witness_block_transfers : (at200 0 |>.setI 0xFF0#16).indexAddr + (15 : RegIx).val ≤ 0xFFF ∧
    (at200 0 |>.setI 0xFFF#16).indexAddr + (0 : RegIx).val ≤ 0xFFF ∧
    0xFFF < (at200 0 |>.setI 0xFF1#16).indexAddr + (15 : RegIx).val ∧
    0xFFF < (at200 0 |>.setI 0x1000#16).indexAddr + (0 : RegIx).val := by decide

/-- AStoreIsSeenByTheNextFetch: two registers stored at `pc`. -/
theorem witness_AStoreIsSeenByTheNextFetch : 1 ≤ (1 : RegIx).val ∧
    (at200 0 |>.setI 0x200#16).indexAddr + (1 : RegIx).val ≤ 0xFFF ∧
    (at200 0 |>.setI 0x200#16).i = (at200 0 |>.setI 0x200#16).pc := by decide

/-- CanonicalMemoriesThatReadAlikeAreEqual: a memory in canonical form that lists a cell. -/
theorem witness_CanonicalMemories : Memory.wf (at200 0x6012).memBase (at200 0x6012).mem ∧ (at200 0x6012).mem ≠ [] := by
  decide

/-- ClearBlanksTheFramebuffer, HiddenStateIsNotRead: a running machine, and an instruction that is neither SetSound nor
WaitKey. -/
theorem witness_ClearBlanksTheFramebuffer : (at200 0x00E0).halted = none ∧ (∀ x, Instr.clear ≠ .setSound x) ∧
    (∀ x, Instr.clear ≠ .waitKey x) := ⟨rfl, nofun, nofun⟩

/-- One pixel of the sprite 80 at I = 0xFFF, drawn at (0, 0), the last place of a sprite row; that pixel is on. -/
def lastSprite : State := { (at200 0 |>.setI 0xFFF#16 |>.writeBytes 0xFFF [0x80#8]) with fb := fbFlip (at200 0).fb 0 0 }

/-- DrawInvertsThePixelsUnderTheSprite: both range hypotheses, a pixel under the sprite, and one beside it. -/
theorem witness_DrawInvertsThePixelsUnderTheSprite :
    ((0 : Fin 16).val = 0 ∨ (at200 0 |>.setI 0xFFFF#16).indexAddr + (0 : Fin 16).val - 1 ≤ 0xFFF) ∧
    ((1 : Fin 16).val = 0 ∨ lastSprite.indexAddr + (1 : Fin 16).val - 1 ≤ 0xFFF) ∧
    (SpriteOn lastSprite 0 1 1 0 0 ∧ lastSprite.fb[(0 : Fin 32)][(0 : Fin 64)] = true) ∧ ¬SpriteOn lastSprite 0 1 1 1 1 := by
  refine ⟨.inl rfl, .inr (by decide), ⟨⟨0, by decide, 0, by decide, ?_⟩, by decide⟩, ?_⟩
  · decide
  · rintro ⟨r, hr, c, hc, -, h, -⟩
    have hv : (lastSprite.getV 1).toNat = 0 := by decide
    rw [hv] at h; omega

/-- DrawInvertsThePixelsUnderTheSprite, DrawingTwiceRestoresTheFramebuffer: no pixel under the sprite is on. -/
theorem witness_no_collision : ∀ (py : Fin 32) (px : Fin 64),
    SpriteOn (at200 0) 0 1 1 px.val py.val → (at200 0).fb[py][px] = false := by
  intro py px _
  have h : (at200 0).fb = Vector.replicate 32 (Vector.replicate 64 false) := by rfl
  rw [h]; simp

/-- DrawBeyondMemoryIsFatal: a sprite whose second row, or first row, is the first byte beyond memory. -/
theorem witness_DrawBeyondMemoryIsFatal : (1 ≤ (2 : Fin 16).val ∧ 0xFFF < (at200 0 |>.setI 0xFFF#16).indexAddr + (2 : Fin 16).val - 1) ∧
    (1 ≤ (1 : Fin 16).val ∧ 0xFFF < (at200 0 |>.setI 0x1000#16).indexAddr + (1 : Fin 16).val - 1) := by decide

/-- DrawingTwiceRestoresTheFramebuffer: the state after the first Draw meets the hypotheses on the second. -/
theorem witness_DrawingTwiceRestoresTheFramebuffer :
    (drawSprite 0 1 1 lastSprite).getV 0 = lastSprite.getV 0 ∧ (drawSprite 0 1 1 lastSprite).getV 1 = lastSprite.getV 1 ∧
    (drawSprite 0 1 1 lastSprite).indexAddr + (1 : Fin 16).val - 1 ≤ 0xFFF ∧
    (∀ r, r < (1 : Fin 16).val → (drawSprite 0 1 1 lastSprite).readByte ((drawSprite 0 1 1 lastSprite).indexAddr + r) =
      lastSprite.readByte (lastSprite.indexAddr + r)) := by decide

/-- WaitKeyTakesANewKeyOrRepeats, WaitKeyMayTakeAnyNewKey: key 15 is new beside key 3; key 7 is held, not new. -/
theorem witness_WaitKey :
    (∃ k, k < 16 ∧ ({ at200 0 with keysCur := 0x8008#16 } : State).keysCur.getLsbD k = true ∧
      ({ at200 0 with keysCur := 0x8008#16 } : State).keysPrev.getLsbD k = false) ∧
    ((0x8008#16).getLsbD 15 = true ∧ (0x0000#16).getLsbD 15 = false) ∧
    (∀ k, k < 16 → ({ at200 0 with keysCur := 0x0080#16, keysPrev := 0x0080#16 } : State).keysCur.getLsbD k = true →
      ({ at200 0 with keysCur := 0x0080#16, keysPrev := 0x0080#16 } : State).keysPrev.getLsbD k = true) := by decide

/-- WhoWritesEachStorage, WhoWritesEachRegister, HiddenStateIsNotRead: an instruction that answers next and changes a
register; one that changes `I`. -/
theorem witness_who_writes :
    (exec (.loadImm 3 0x01#8) (at200 0) = .next ((at200 0).setV 3 0x01#8) ∧
      ((at200 0).setV 3 0x01#8).getV 3 ≠ (at200 0).getV 3) ∧
    (exec (.loadIndex 0x300#12) (at200 0) = .next ((at200 0).setI 0x300#16) ∧ ((at200 0).setI 0x300#16).i ≠ (at200 0).i) :=
  ⟨⟨rfl, by decide⟩, ⟨rfl, by decide⟩⟩

/-- WhoWritesEachStorage: its other storages are each changed by some instruction. -/
theorem witness_WhoWritesEachStorage :
    after { at200 0x00E0 with fb := fbFlip (at200 0).fb 0 0 } (fun t => !(fbPixel t.fb 0 0)) = true ∧ fbPixel (fbFlip (at200 0).fb 0 0) 0 0 = true ∧
    after (at200 0x2300) (fun t => t.stack != []) = true ∧
    after (at200 0xF055 |>.setV 0 0x01#8 |>.setI 0x300#16) (fun t => t.readByte 0x300 != 0x00#8) = true ∧
    after (at200 0xF015 |>.setV 0 0x01#8) (fun t => t.dt != 0x00#8) = true ∧
    after (at200 0xF018 |>.setV 0 0x01#8) (fun t => t.st != 0x00#8) = true := by decide

/-- EveryStepKeepsTheInvariant: a state with a placed word, one stack entry in a full stack, that meets the invariant
and steps. -/
theorem witness_EveryStepKeepsTheInvariant :
    (oneEntry depthOne).Inv ∧ ∃ t, step (oneEntry depthOne) = .next t := by
  refine ⟨⟨by decide, by simp [oneEntry], fun depth h => ?_, by decide, fun e h => ?_⟩, ?_⟩
  · obtain rfl : 1 = depth := Option.some.inj h
    decide
  · exact absurd (h : (none : Option FatalError) = some e) nofun
  · obtain ⟨_, _, h⟩ | ⟨_, _, h⟩ | ⟨_, _, _, _, h⟩ | ⟨_, _, _, _, _, _, h⟩ := step_cases (oneEntry depthOne) <;>
      exact ⟨_, h⟩

/-- LoadCopiesTheProgram: the longest program, one byte more, and a machine that has stepped. -/
theorem witness_LoadCopiesTheProgram : (State.resetAt 0 params).launch = .constructed ∧
    (List.replicate 3584 0x01#8).length ≤ 3584 ∧ 3584 < (List.replicate 3585 0x01#8).length ∧
    (at200 0).takeInput.launch ≠ .constructed := by
  refine ⟨rfl, by rw [List.length_replicate], by rw [List.length_replicate]; decide, by decide⟩

/-- TheFirstStepRunsTheLoadedInstruction: the bytes 60 12 with nothing after them, and with 3582 bytes after them. -/
theorem witness_TheFirstStepRunsTheLoadedInstruction : ([] : List Byte).length ≤ 3582 ∧
    (List.replicate 3582 0x00#8).length ≤ 3582 ∧ decode (0x60#8 ++ 0x12#8) = .instr (.loadImm 0 0x12#8) := by
  refine ⟨by decide, by rw [List.length_replicate], by decide⟩

end Sys2Proof.Tests
end

/-! Encoding: the decoder against the opcode map (30_encoding.md R73, R74). A decoded word is the encoding of its
instruction, which by `Laws.RowSelects` selects a row; and the fields that a row's mask covers lead the decoder to the
row's instruction. -/

namespace Sys2Proof

open Machine

/-! A word is put together from the fields it is known to have. -/

theorem encNNN_of_field {w : Word16} {n : BitVec 4} (hn : fieldN1 w = n) : encNNN n (fieldNNN w) = w :=
  hn ▸ encNNN_fields w
theorem encXNN_of_field {w : Word16} {n : BitVec 4} (hn : fieldN1 w = n) : encXNN n (fieldX w) (fieldNN w) = w :=
  hn ▸ encXNN_fields w
theorem encX_of_fields {w : Word16} {n : BitVec 4} {b : Byte} (hn : fieldN1 w = n) (hb : fieldNN w = b) :
    encXNN n (fieldX w) b = w :=
  hb ▸ encXNN_of_field hn
theorem encXY_of_fields {w : Word16} {n f : BitVec 4} (hn : fieldN1 w = n) (hf : fieldN4 w = f) :
    encXYN n (fieldX w) (fieldY w) f = w :=
  hn ▸ hf ▸ encXYN_fields w

/-! What the decoder answers: an instruction whose word is the word decoded, or the error that carries it. -/

/-- The answer `d` to the word `w` loses nothing of `w`. -/
def Decoded.Carries (w : Word16) : Decoded → Prop
  | .instr i => i.wellFormed = true ∧ encode i = w
  | .decodeError e => e = w

theorem decodeZero_carries {w : Word16} (h1 : fieldN1 w = 0x0#4) : (decodeZero w).Carries w := by
  have hw : encNNN 0x0#4 (fieldNNN w) = w := encNNN_of_field h1
  unfold decodeZero
  split
  case isTrue h0 => exact ⟨rfl, h0.symm⟩
  case isFalse h0 =>
    split
    case isTrue hE => exact ⟨rfl, hE.symm⟩
    case isFalse hE =>
      have n0 : fieldNNN w ≠ 0x0E0#12 := fun e => h0 (hw.symm.trans (e ▸ rfl))
      have nE : fieldNNN w ≠ 0x0EE#12 := fun e => hE (hw.symm.trans (e ▸ rfl))
      exact ⟨by simp [Instr.wellFormed, n0, nE], hw⟩

theorem decodeAlu_carries {w : Word16} (h1 : fieldN1 w = 0x8#4) : (decodeAlu w).Carries w := by
  unfold decodeAlu
  split
  case h_10 => rfl
  all_goals exact ⟨rfl, encXY_of_fields h1 ‹_›⟩

theorem decodeKey_carries {w : Word16} (h1 : fieldN1 w = 0xE#4) : (decodeKey w).Carries w := by
  unfold decodeKey
  split
  case h_3 => rfl
  all_goals exact ⟨rfl, encX_of_fields h1 ‹_›⟩

theorem decodeMisc_carries {w : Word16} (h1 : fieldN1 w = 0xF#4) : (decodeMisc w).Carries w := by
  unfold decodeMisc
  split
  case h_10 => rfl
  all_goals exact ⟨rfl, encX_of_fields h1 ‹_›⟩

theorem decode_carries (w : Word16) : (decode w).Carries w := by
  unfold decode
  split
  case h_1 h1 => exact decodeZero_carries h1
  case h_2 | h_3 | h_11 | h_12 => exact ⟨rfl, encNNN_of_field ‹_›⟩
  case h_4 | h_5 | h_7 | h_8 | h_13 => exact ⟨rfl, encXNN_of_field ‹_›⟩
  case h_6 | h_10 =>
    dsimp only
    split
    · exact ⟨rfl, encXY_of_fields ‹_› ‹_›⟩
    · rfl
  case h_9 h1 => exact decodeAlu_carries h1
  case h_14 h1 => exact ⟨rfl, encXY_of_fields h1 rfl⟩
  case h_15 h1 => exact decodeKey_carries h1
  case h_16 =>
    have h1 : fieldN1 w = 0xF#4 := by
      simp only [imp_false] at *
      bv_omega
    exact decodeMisc_carries h1

/-! From the decoder to the map. -/

open Laws in
/-- `Laws.RowSelects` for every instruction. -/
theorem selectsItsRow : ∀ i : Instr, RowSelects.Statement i
  | .clear => RowSelects.clear
  | .ret => RowSelects.ret
  | .sysCall nnn => RowSelects.sysCall nnn
  | .jump nnn => RowSelects.jump nnn
  | .call nnn => RowSelects.call nnn
  | .skipEqImm x nn => RowSelects.skipEqImm x nn
  | .skipNeqImm x nn => RowSelects.skipNeqImm x nn
  | .skipEqReg x y => RowSelects.skipEqReg x y
  | .loadImm x nn => RowSelects.loadImm x nn
  | .addImm x nn => RowSelects.addImm x nn
  | .copy x y => RowSelects.copy x y
  | .or x y => RowSelects.or x y
  | .and x y => RowSelects.and x y
  | .xor x y => RowSelects.xor x y
  | .add x y => RowSelects.add x y
  | .sub x y => RowSelects.sub x y
  | .shr x y => RowSelects.shr x y
  | .subn x y => RowSelects.subn x y
  | .shl x y => RowSelects.shl x y
  | .skipNeqReg x y => RowSelects.skipNeqReg x y
  | .loadIndex nnn => RowSelects.loadIndex nnn
  | .jumpOffset nnn => RowSelects.jumpOffset nnn
  | .random x nn => RowSelects.random x nn
  | .draw x y n => RowSelects.draw x y n
  | .skipKeyPressed x => RowSelects.skipKeyPressed x
  | .skipKeyNotPressed x => RowSelects.skipKeyNotPressed x
  | .getDelay x => RowSelects.getDelay x
  | .waitKey x => RowSelects.waitKey x
  | .setDelay x => RowSelects.setDelay x
  | .setSound x => RowSelects.setSound x
  | .addToIndex x => RowSelects.addToIndex x
  | .loadFontAddr x => RowSelects.loadFontAddr x
  | .storeBCD x => RowSelects.storeBCD x
  | .regDump x => RowSelects.regDump x
  | .regLoad x => RowSelects.regLoad x

/-- A word that decodes selects the row of its instruction's name. -/
theorem row_of_decode {w : Word16} {i : Instr} (h : decode w = .instr i) :
    ∃ r ∈ opcodeMap, r.name = i.mnemonic ∧ r.selects w = true := by
  have hc : (Decoded.instr i).Carries w := h ▸ decode_carries w
  obtain ⟨hwf, rfl⟩ := hc
  exact selectsItsRow i hwf

theorem decode_eq_decodeError {w : Word16} (hno : ∀ r ∈ opcodeMap, r.selects w = false) :
    decode w = .decodeError w := by
  cases hd : decode w with
  | instr i =>
    obtain ⟨r, hr, -, hs⟩ := row_of_decode hd
    exact absurd hs (by simp [hno r hr])
  | decodeError e =>
    have hc : (Decoded.decodeError e).Carries w := hd ▸ decode_carries w
    exact congrArg _ hc

/-! From the map to the decoder. -/

/-- Where the mask is all ones the word has the pattern's bits. -/
theorem extract_of_mask {w m v : Word16} {lo len : Nat} (hm : m.extractLsb' lo len = BitVec.allOnes len)
    (h : w &&& m = v) : w.extractLsb' lo len = v.extractLsb' lo len := by
  rw [← h, BitVec.extractLsb'_and, hm, BitVec.and_allOnes]

/-- R73: a word of the family 0nnn other than the two exact words. -/
theorem decode_sysCall {w : Word16} (h1 : fieldN1 w = 0x0#4) (h0 : w ≠ 0x00E0#16) (hE : w ≠ 0x00EE#16) :
    decode w = .instr (.sysCall (fieldNNN w)) := by
  simp [decode, decodeZero, h1, h0, hE]

/-- The answer is an instruction of that name. -/
def Decoded.Names (name : String) (d : Decoded) : Prop := ∃ i, d = .instr i ∧ i.mnemonic = name

/-- Rows 1 to 10 and 20 to 24 of R74. -/
theorem names_of_plainRow {w : Word16} :
    ∀ r ∈ opcodeRowsPlain, w &&& r.mask = r.value → w ∉ r.exclude → (decode w).Names r.name := by
  simp only [opcodeRowsPlain, List.forall_mem_cons]
  refine ⟨?clear, ?ret, ?sysCall, ?jump, ?call, ?skipEqImm, ?skipNeqImm, ?skipEqReg, ?loadImm, ?addImm, ?skipNeqReg,
    ?loadIndex, ?jumpOffset, ?random, ?draw, nofun⟩ <;> intro h hx
  case clear | ret =>
    obtain rfl := (BitVec.and_allOnes (x := w)).symm.trans h
    exact ⟨_, rfl, rfl⟩
  case sysCall =>
    have h1 : fieldN1 w = 0x0#4 := extract_of_mask rfl h
    have hx : w ≠ 0x00E0#16 ∧ w ≠ 0x00EE#16 := by simpa using hx
    exact ⟨_, decode_sysCall h1 hx.1 hx.2, rfl⟩
  case skipEqReg | skipNeqReg =>
    have h1 : fieldN1 w = _ := extract_of_mask rfl h
    have h4 : fieldN4 w = _ := extract_of_mask rfl h
    unfold decode
    rw [h1, h4]
    exact ⟨_, rfl, rfl⟩
  all_goals
    have h1 : fieldN1 w = _ := extract_of_mask rfl h
    unfold decode
    rw [h1]
    exact ⟨_, rfl, rfl⟩

/-- Rows 11 to 19 of R74. -/
theorem names_of_aluRow {w : Word16} : ∀ r ∈ opcodeRowsAlu, w &&& r.mask = r.value → (decode w).Names r.name := by
  intro r hr h
  have hm : ∀ r ∈ opcodeRowsAlu, r.mask = 0xF00F#16 := by decide
  have h1 : fieldN1 w = fieldN1 r.value := extract_of_mask (by rw [hm r hr]; rfl) h
  have h4 : fieldN4 w = fieldN4 r.value := extract_of_mask (by rw [hm r hr]; rfl) h
  unfold decode decodeAlu
  rw [h1, h4]
  clear h h1 h4 hm
  simp only [opcodeRowsAlu, List.mem_cons, List.not_mem_nil, or_false] at hr
  rcases hr with rfl | rfl | rfl | rfl | rfl | rfl | rfl | rfl | rfl
  all_goals exact ⟨_, rfl, rfl⟩

/-- Rows 25 to 35 of R74. -/
theorem names_of_xRow {w : Word16} : ∀ r ∈ opcodeRowsX, w &&& r.mask = r.value → (decode w).Names r.name := by
  intro r hr h
  have hm : ∀ r ∈ opcodeRowsX, r.mask = 0xF0FF#16 := by decide
  have h1 : fieldN1 w = fieldN1 r.value := extract_of_mask (by rw [hm r hr]; rfl) h
  have hn : fieldNN w = fieldNN r.value := extract_of_mask (by rw [hm r hr]; rfl) h
  unfold decode decodeKey decodeMisc
  rw [h1, hn]
  clear h h1 hn hm
  simp only [opcodeRowsX, List.mem_cons, List.not_mem_nil, or_false] at hr
  rcases hr with rfl | rfl | rfl | rfl | rfl | rfl | rfl | rfl | rfl | rfl | rfl
  all_goals exact ⟨_, rfl, rfl⟩

theorem names_of_selects {r : OpcodeRow} (hr : r ∈ opcodeMap) {w : Word16} (hs : r.selects w = true) :
    (decode w).Names r.name := by
  obtain ⟨h, hx⟩ : w &&& r.mask = r.value ∧ w ∉ r.exclude := by simpa [OpcodeRow.selects] using hs
  simp only [opcodeMap, List.mem_append] at hr
  obtain (hr | hr) | hr := hr
  · exact names_of_plainRow r hr h hx
  · exact names_of_aluRow r hr h
  · exact names_of_xRow r hr h

/-! The overlap of two rows. -/

/-- Of two different rows whose values agree where both masks look, one is an exact word. -/
theorem compatible_rows : ∀ r ∈ opcodeMap, ∀ q ∈ opcodeMap, r.value &&& q.mask = q.value &&& r.mask → r ≠ q →
    ∃ e ∈ [r, q], e.mask = 0xFFFF#16 ∧ (e.value = 0x00E0#16 ∨ e.value = 0x00EE#16) := by
  decide

theorem overlap_is_exact {w : Word16} {r q : OpcodeRow} (hr : r ∈ opcodeMap) (hq : q ∈ opcodeMap)
    (hwr : w &&& r.mask = r.value) (hwq : w &&& q.mask = q.value) (hne : r ≠ q) : w = 0x00E0#16 ∨ w = 0x00EE#16 := by
  have hcompat : r.value &&& q.mask = q.value &&& r.mask := by
    rw [← hwr, ← hwq, BitVec.and_assoc, BitVec.and_assoc, BitVec.and_comm r.mask]
  obtain ⟨e, he, hm, hv⟩ := compatible_rows r hr q hq hcompat hne
  have hmatch : ∀ e ∈ [r, q], w &&& e.mask = e.value := by simp [hwr, hwq]
  have hw : w = e.value := by
    rw [← hmatch e he, hm]
    exact BitVec.and_allOnes.symm
  rwa [hw]

/-! The machine. -/

/-- A running machine that fetches an illegal word records it as its fatal error (R75, R181). -/
theorem step_of_decodeError {s : State} {e : Word16} (hh : s.halted = none) (hp : s.pc.toNat ≤ Config.lastFetch)
    (hd : decode s.nextWord = .decodeError e) : ∃ t, step s = .next t ∧ t.halted = some (.decodeError e) := by
  obtain ⟨f, hf, -⟩ | ⟨-, hf, -⟩ | ⟨-, -, w, hw, ht⟩ | ⟨-, -, i, t, hi, -⟩ := step_cases s
  · simp [hh] at hf
  · omega
  · obtain rfl : e = w := by simpa [hd] using hw
    exact ⟨_, ht, rfl⟩
  · simp [hd] at hi

/-- Settles O3, by the rows of the map for a word that selects one, and by the encoding of the decoded instruction
(`row_of_decode`) for a word that selects none. -/
theorem decoderFollowsTheOpcodeMap : Obligations.DecoderFollowsTheOpcodeMap := by
  refine ⟨rfl, rfl, fun w => decode_sysCall, fun w => ⟨fun r hr => names_of_selects hr, decode_eq_decodeError⟩,
    fun w r q => overlap_is_exact, fun s hh hp hno => ?_⟩
  exact step_of_decodeError hh hp (decode_eq_decodeError hno)

end Sys2Proof

/-! The step cycle (40_step_cycle.md R98, R100): a running step is phases 1 and 2, then writes to the fields that `Touches`
allows, then the report. -/

namespace Sys2Proof.Machine

@[simp] theorem beginStep_keysPrev (s : State) : (beginStep s).keysPrev = s.keysCur := rfl
@[simp] theorem beginStep_keysCur (s : State) : (beginStep s).keysCur = s.input.keys := rfl

theorem Touches.keysPrev_eq {s t : State} (h : Touches s t) : t.keysPrev = s.keysPrev := by
  obtain ⟨_, _, _, _, _, _, _, _, _, rfl⟩ := h
  rfl

theorem Touches.keysCur_eq {s t : State} (h : Touches s t) : t.keysCur = s.keysCur := by
  obtain ⟨_, _, _, _, _, _, _, _, _, rfl⟩ := h
  rfl

/-- The advance of `pc` is among the writes that `Touches` allows. -/
theorem Touches.of_advancePc {s t : State} (h : Touches (advancePc s) t) : Touches s t := by
  obtain ⟨_, _, _, _, _, _, _, _, _, rfl⟩ := h
  exact ⟨_, _, _, _, _, _, _, _, _, rfl⟩

/-- Every running step, a fatal one included, reports on a state that phases 3 to 5 made of what phases 1 and 2 left. -/
theorem step_touches_beginStep {s : State} (hh : s.halted = none) :
    ∃ redraw t, step s = .next (reportPhase redraw t) ∧ Touches (beginStep s.takeInput) t := by
  obtain ⟨e, he, -⟩ | ⟨-, -, hfetch⟩ | ⟨-, -, w, -, hword⟩ | ⟨-, -, i, t, -, ht, hexec⟩ := step_cases s
  · simp [hh] at he
  · exact ⟨_, _, hfetch, touches_raise _ _⟩
  · exact ⟨_, _, hword, (touches_raise _ _).of_advancePc⟩
  · exact ⟨_, _, hexec, (exec_touches ht).of_advancePc⟩

/-- The whole next state of a running step that fetches an illegal word. -/
theorem step_eq_of_decodeError {s : State} {e : Word16} (hh : s.halted = none) (hp : s.pc.toNat ≤ Config.lastFetch)
    (hd : decode s.nextWord = .decodeError e) :
    step s = .next (reportPhase false { advancePc (beginStep s.takeInput) with halted := some (.decodeError e) }) := by
  obtain ⟨f, hf, -⟩ | ⟨-, hf, -⟩ | ⟨-, -, w, hw, hstep⟩ | ⟨-, -, i, t, hi, -⟩ := step_cases s
  · simp [hh] at hf
  · omega
  · obtain rfl : e = w := by simpa [hd] using hw
    exact hstep
  · simp [hd] at hi

/-- Where a fetch is valid the advance of `pc` does not wrap. -/
theorem advancePc_pc_toNat {s : State} (hp : s.pc.toNat ≤ Config.lastFetch) :
    (advancePc s).pc.toNat = s.pc.toNat + 2 := by
  rw [advancePc_pc]
  simp only [Config.lastFetch] at hp
  bv_omega

/-- Settles O8: the snapshots rotate in phase 2, and no later phase writes them. -/
theorem snapshotsRotateInEveryRunningStep : Obligations.SnapshotsRotateInEveryRunningStep := by
  intro s hh
  obtain ⟨redraw, t, hstep, ht⟩ := step_touches_beginStep hh
  exact ⟨_, hstep, by simp [ht.keysPrev_eq], by simp [ht.keysCur_eq]⟩

/-- Settles O12, by the next state of a step that fetches an illegal word. -/
theorem illegalWordIsADecodeError : Obligations.IllegalWordIsADecodeError := by
  intro s hh hp hd
  exact ⟨_, step_eq_of_decodeError hh hp hd, rfl, rfl, advancePc_pc_toNat (s := beginStep s.takeInput) hp⟩

end Sys2Proof.Machine

/-! Jump (41_control_flow.md R112): the target is any 12-bit value; the only one at which no fetch is valid is 0xFFF. -/

namespace Sys2Proof.Machine

theorem decode_jump (nnn : BitVec 12) : decode (encNNN 0x1#4 nnn) = .instr (.jump nnn) := by
  simp only [decode, fieldN1_encNNN, fieldNNN_encNNN]

/-- The advanced `pc` is overwritten. -/
theorem exec_jump (nnn : BitVec 12) (s : State) : exec (.jump nnn) s = .next (s.setPc (zextAddr nnn)) := rfl

/-- The whole next state of a running step whose fetch is not valid (R99). -/
theorem step_eq_of_invalidFetch {s : State} (hh : s.halted = none) (hp : Config.lastFetch < s.pc.toNat) :
    step s = .next (reportPhase false { beginStep s.takeInput with
      halted := some (.addressOutOfRange (max s.pc.toNat Config.memSize)) }) := by
  obtain ⟨e, he, -⟩ | ⟨-, -, hstep⟩ | ⟨-, hle, -⟩ | ⟨-, hle, -⟩ := step_cases s
  · simp [hh] at he
  · exact hstep
  · omega
  · omega

/-- Settles O22: Jump is one write to `pc`, and after the target 0xFFF the next fetch is not valid. -/
theorem jumpSetsPc : Obligations.JumpSetsPc := by
  intro nnn
  refine ⟨decode_jump nnn, fun s => ⟨_, exec_jump nnn s, zextAddr_toNat nnn, s.setPc_frame _, ?_⟩⟩
  rintro rfl hh
  have hp : Config.lastFetch < (s.setPc (zextAddr 0xFFF#12)).pc.toNat := by rw [State.setPc_pc]; decide
  exact ⟨_, step_eq_of_invalidFetch hh hp, rfl⟩

end Sys2Proof.Machine

/-! The four skips on registers and immediates (42_skips.md R120 to R123): each is `skipIf` on its own comparison. -/

namespace Sys2Proof.Machine

/-! The decoder: formats XNN, and XY with function code 0. -/

theorem decode_skipEqImm (x : RegIx) (nn : Byte) : decode (encXNN 0x3#4 x nn) = .instr (.skipEqImm x nn) := by
  simp only [decode, fieldN1_encXNN, fieldX_encXNN, fieldNN_encXNN]

theorem decode_skipNeqImm (x : RegIx) (nn : Byte) : decode (encXNN 0x4#4 x nn) = .instr (.skipNeqImm x nn) := by
  simp only [decode, fieldN1_encXNN, fieldX_encXNN, fieldNN_encXNN]

/-- R74 row 7, with the words under n1 = 5 that select no row. -/
theorem decode_encXYN_five (x y : RegIx) (n : BitVec 4) : decode (encXYN 0x5#4 x y n) =
    if n = 0x0#4 then .instr (.skipEqReg x y) else .decodeError (encXYN 0x5#4 x y n) := by
  simp only [decode, fieldN1_encXYN, fieldX_encXYN, fieldY_encXYN, fieldN4_encXYN]

/-- R74 row 20, with the words under n1 = 9 that select no row. -/
theorem decode_encXYN_nine (x y : RegIx) (n : BitVec 4) : decode (encXYN 0x9#4 x y n) =
    if n = 0x0#4 then .instr (.skipNeqReg x y) else .decodeError (encXYN 0x9#4 x y n) := by
  simp only [decode, fieldN1_encXYN, fieldX_encXYN, fieldY_encXYN, fieldN4_encXYN]

/-! The execute phase. -/

theorem exec_skipEqImm (x : RegIx) (nn : Byte) (s : State) :
    exec (.skipEqImm x nn) s = .next (skipIf (s.getV x == nn) s) := rfl

theorem exec_skipNeqImm (x : RegIx) (nn : Byte) (s : State) :
    exec (.skipNeqImm x nn) s = .next (skipIf (s.getV x != nn) s) := rfl

theorem exec_skipEqReg (x y : RegIx) (s : State) :
    exec (.skipEqReg x y) s = .next (skipIf (s.getV x == s.getV y) s) := rfl

theorem exec_skipNeqReg (x y : RegIx) (s : State) :
    exec (.skipNeqReg x y) s = .next (skipIf (s.getV x != s.getV y) s) := rfl

theorem skipIf_pc {taken : Bool} {p : Prop} [Decidable p] (hp : taken = true ↔ p) (s : State) :
    (skipIf taken s).pc = if p then s.pc + 2#16 else s.pc := by
  simp only [skipIf_eq, State.setPc_pc, hp]

/-- An instruction that is `skipIf` on a test of `p` completes, skips exactly where `p` holds, and writes `pc` alone. -/
theorem exec_skips {i : Instr} {s : State} {taken : Bool} {p : Prop} [Decidable p]
    (hexec : exec i s = .next (skipIf taken s)) (hp : taken = true ↔ p) :
    ∃ t, exec i s = .next t ∧ t.pc = (if p then s.pc + 2#16 else s.pc) ∧ Frame { pc := true } s t :=
  ⟨_, hexec, skipIf_pc hp s, skipIf_frame s taken⟩

/-- Settles O25: the two words decode, and each instruction skips on its comparison with the immediate. -/
theorem skipsOnAnImmediate : Obligations.SkipsOnAnImmediate := by
  intro x nn
  refine ⟨decode_skipEqImm x nn, decode_skipNeqImm x nn, fun s => ⟨?eq, ?neq⟩⟩
  case eq => exact exec_skips (exec_skipEqImm x nn s) beq_iff_eq
  case neq => exact exec_skips (exec_skipNeqImm x nn s) bne_iff_ne

/-- Settles O26: function code 0 decodes and every other is an error; each instruction skips on its comparison of the two
registers. -/
theorem skipsOnARegister : Obligations.SkipsOnARegister := by
  intro x y
  refine ⟨?fiveZero, ?nineZero, fun n hn => ⟨?fiveOther, ?nineOther⟩, fun s => ⟨?eq, ?neq⟩⟩
  case fiveZero => exact (decode_encXYN_five x y 0x0#4).trans (if_pos rfl)
  case nineZero => exact (decode_encXYN_nine x y 0x0#4).trans (if_pos rfl)
  case fiveOther => exact (decode_encXYN_five x y n).trans (if_neg hn)
  case nineOther => exact (decode_encXYN_nine x y n).trans (if_neg hn)
  case eq => exact exec_skips (exec_skipEqReg x y s) beq_iff_eq
  case neq => exact exec_skips (exec_skipNeqReg x y s) bne_iff_ne

end Sys2Proof.Machine

/-! The loads that write no flag (43_load_alu.md R130, R131, R133): each is one write to `V[x]`. -/

namespace Sys2Proof.Machine

/-! The decoder: two words of format XNN, and the words under n1 = 8. -/

theorem decode_loadImm (x : RegIx) (nn : Byte) : decode (encXNN 0x6#4 x nn) = .instr (.loadImm x nn) := by
  simp only [decode, fieldN1_encXNN, fieldX_encXNN, fieldNN_encXNN]

theorem decode_addImm (x : RegIx) (nn : Byte) : decode (encXNN 0x7#4 x nn) = .instr (.addImm x nn) := by
  simp only [decode, fieldN1_encXNN, fieldX_encXNN, fieldNN_encXNN]

/-- Under n1 = 8 the function code decides (R74 rows 11 to 19). -/
theorem decode_encXYN_eight (x y : RegIx) (n : BitVec 4) :
    decode (encXYN 0x8#4 x y n) = decodeAlu (encXYN 0x8#4 x y n) := by
  simp only [decode, fieldN1_encXYN]

theorem decode_copy (x y : RegIx) : decode (encXYN 0x8#4 x y 0x0#4) = .instr (.copy x y) := by
  simp only [decode_encXYN_eight, decodeAlu, fieldX_encXYN, fieldY_encXYN, fieldN4_encXYN]

/-! The execute phase. -/

theorem exec_loadImm (x : RegIx) (nn : Byte) (s : State) : exec (.loadImm x nn) s = .next (s.setV x nn) := rfl

theorem exec_addImm (x : RegIx) (nn : Byte) (s : State) :
    exec (.addImm x nn) s = .next (s.setV x (s.getV x + nn)) := rfl

theorem exec_copy (x y : RegIx) (s : State) : exec (.copy x y) s = .next (s.setV x (s.getV y)) := rfl

/-- An instruction that is one write to `V[x]` completes, leaves the written byte there, and changes nothing else. -/
theorem exec_setsRegister {i : Instr} {s : State} {x : RegIx} {b : Byte} (hexec : exec i s = .next (s.setV x b)) :
    ∃ t, exec i s = .next t ∧ t.getV x = b ∧ Frame { regs := [x] } s t :=
  ⟨_, hexec, s.getV_setV_self x b, s.setV_frame x b⟩

/-- Settles O27: the two words decode, and each instruction is one write to `V[x]`; the addition of bytes wraps at 256. -/
theorem loadAndAddAnImmediate : Obligations.LoadAndAddAnImmediate := by
  intro x nn
  refine ⟨decode_loadImm x nn, decode_addImm x nn, fun s => ⟨?load, ?add⟩⟩
  case load => exact exec_setsRegister (exec_loadImm x nn s)
  case add =>
    obtain ⟨t, hexec, hx, hframe⟩ := exec_setsRegister (exec_addImm x nn s)
    exact ⟨t, hexec, hx ▸ BitVec.toNat_add (s.getV x) nn, hframe⟩

/-- Settles O28: the word decodes, and the instruction is one write of the old `V[y]` to `V[x]`. -/
theorem copyCopies : Obligations.CopyCopies := by
  intro x y
  exact ⟨decode_copy x y, fun s => exec_setsRegister (exec_copy x y s)⟩

end Sys2Proof.Machine

/-! LoadIndex (44_index_memory.md R150): one write of the zero-extended operand to `I`. -/

namespace Sys2Proof.Machine

theorem decode_loadIndex (nnn : BitVec 12) : decode (encNNN 0xA#4 nnn) = .instr (.loadIndex nnn) := by
  simp only [decode, fieldN1_encNNN, fieldNNN_encNNN]

theorem exec_loadIndex (nnn : BitVec 12) (s : State) :
    exec (.loadIndex nnn) s = .next (s.setI (zextAddr nnn)) := rfl

/-- Settles O34: the word decodes, and the instruction is one write to `I` of the operand, which zero extension keeps. -/
theorem loadIndexSetsI : Obligations.LoadIndexSetsI := by
  intro nnn
  exact ⟨decode_loadIndex nnn, fun s =>
    ⟨_, exec_loadIndex nnn s, zextAddr_toNat nnn, s.setI_frame (zextAddr nnn)⟩⟩

end Sys2Proof.Machine

/-! Clear (45_display.md R160): one write of the blank grid to `fb`, and the report that asks for a redraw. -/

namespace Sys2Proof.Machine

/-- What the phases from decode to report do with a word that decodes to an instruction (40_step_cycle.md R100 to R103). -/
theorem runWord_next {w : Word16} {i : Instr} {s t : State} (hd : decode w = .instr i) (hexec : exec i s = .next t) :
    runWord w s = .next (reportPhase (requestsRedraw i) t) := by
  simp only [runWord, hd, hexec, reportOutcome]

theorem stepResult_of_running {s : State} (redraw : Bool) (hh : s.halted = none) :
    stepResult redraw s = .ok redraw (s.st != 0#8) := by
  simp only [stepResult, hh]

/-- A state that differs in the framebuffer alone. -/
theorem Frame.of_fb (s : State) (fb : Framebuffer) : Frame { fb := true } s { s with fb := fb } :=
  { Frame.rfl' { fb := true } s with fb := nofun }

/-- The grid with every pixel off. -/
def blankFramebuffer : Framebuffer := Vector.replicate 32 (Vector.replicate 64 false)

theorem blankFramebuffer_pixel (py : Fin 32) (px : Fin 64) : blankFramebuffer[py][px] = false := by
  simp only [blankFramebuffer, Fin.getElem_fin, Vector.getElem_replicate]

theorem decode_clear : decode 0x00E0#16 = .instr .clear := by decide

theorem exec_clear (s : State) : exec .clear s = .next { s with fb := blankFramebuffer } := rfl

theorem requestsRedraw_clear : requestsRedraw .clear = true := rfl

/-- Settles O41: Clear is one write to `fb`, which leaves a running machine running; so the report is Ok, with the redraw
that Clear requests whatever the framebuffer held. -/
theorem clearBlanksTheFramebuffer : Obligations.ClearBlanksTheFramebuffer := by
  refine ⟨decode_clear, fun s => ⟨?execute, fun hh => ?report⟩⟩
  case execute => exact ⟨_, exec_clear s, blankFramebuffer_pixel, Frame.of_fb s blankFramebuffer⟩
  case report =>
    refine ⟨_, s.st != 0#8, runWord_next decode_clear (exec_clear s), ?_⟩
    have hcleared : State.halted { s with fb := blankFramebuffer } = none := hh
    rw [reportPhase_result, requestsRedraw_clear, stepResult_of_running true hcleared]

end Sys2Proof.Machine

/-! The two skips on a key (46_keypad_timers.md R170, R171): each is `skipIf` on the level of the key in `V[x]`. -/

namespace Sys2Proof.Machine

/-! The decoder: under n1 = 0xE the function code decides (R74 rows 25, 26). -/

theorem decode_encXNN_key (x : RegIx) (nn : Byte) : decode (encXNN 0xE#4 x nn) = decodeKey (encXNN 0xE#4 x nn) := by
  simp only [decode, fieldN1_encXNN]

theorem decode_skipKeyPressed (x : RegIx) : decode (encXNN 0xE#4 x 0x9E#8) = .instr (.skipKeyPressed x) := by
  simp only [decode_encXNN_key, decodeKey, fieldX_encXNN, fieldNN_encXNN]

theorem decode_skipKeyNotPressed (x : RegIx) : decode (encXNN 0xE#4 x 0xA1#8) = .instr (.skipKeyNotPressed x) := by
  simp only [decode_encXNN_key, decodeKey, fieldX_encXNN, fieldNN_encXNN]

/-! The level test, and its negation: a code above 15 is not pressed. -/

theorem State.keyPressed_iff (s : State) (code : Byte) :
    s.keyPressed code = true ↔ code.toNat ≤ 15 ∧ s.keysCur.getLsbD code.toNat = true := by
  simp only [State.keyPressed, Bool.and_eq_true, decide_eq_true_eq]

theorem State.not_keyPressed_iff (s : State) (code : Byte) :
    (!s.keyPressed code) = true ↔ 15 < code.toNat ∨ s.keysCur.getLsbD code.toNat = false := by
  rw [Bool.not_eq_true', ← Bool.not_eq_true, s.keyPressed_iff, not_and_or, not_le, Bool.not_eq_true]

/-! The execute phase. -/

theorem exec_skipKeyPressed (x : RegIx) (s : State) :
    exec (.skipKeyPressed x) s = .next (skipIf (s.keyPressed (s.getV x)) s) := rfl

theorem exec_skipKeyNotPressed (x : RegIx) (s : State) :
    exec (.skipKeyNotPressed x) s = .next (skipIf (!s.keyPressed (s.getV x)) s) := rfl

/-- Settles O45: the two words decode, and each instruction skips on the level test of the key in `V[x]` or on its
negation. -/
theorem skipsOnAKey : Obligations.SkipsOnAKey := by
  intro x
  refine ⟨decode_skipKeyPressed x, decode_skipKeyNotPressed x, fun s => ⟨?pressed, ?notPressed⟩⟩
  case pressed =>
    obtain ⟨t, hexec, hpc, hframe⟩ := exec_skips (exec_skipKeyPressed x s) (s.keyPressed_iff (s.getV x))
    exact ⟨t, hexec, hframe, hpc⟩
  case notPressed =>
    obtain ⟨t, hexec, hpc, hframe⟩ := exec_skips (exec_skipKeyNotPressed x s) (s.not_keyPressed_iff (s.getV x))
    exact ⟨t, hexec, hframe, hpc⟩

end Sys2Proof.Machine

/-! The decoder on the word of each instruction (30_encoding.md R73, R74): the constructors whose equation does not stand
above, and from all of them that decoding undoes encoding. -/

namespace Sys2Proof.Machine

theorem decode_ret : decode 0x00EE#16 = .instr .ret := by decide

/-- R73: outside the two exact words the whole family 0nnn is SysCall. -/
theorem decode_encNNN_zero {nnn : BitVec 12} (h0 : nnn ≠ 0x0E0#12) (hE : nnn ≠ 0x0EE#12) :
    decode (encNNN 0x0#4 nnn) = .instr (.sysCall nnn) := by
  have hne : ∀ {w : Word16}, nnn ≠ fieldNNN w → encNNN 0x0#4 nnn ≠ w := fun hn e =>
    hn (e ▸ (fieldNNN_encNNN 0x0#4 nnn).symm)
  rw [decode_sysCall (fieldN1_encNNN 0x0#4 nnn) (hne h0) (hne hE), fieldNNN_encNNN]

theorem decode_call (nnn : BitVec 12) : decode (encNNN 0x2#4 nnn) = .instr (.call nnn) := by
  simp only [decode, fieldN1_encNNN, fieldNNN_encNNN]

theorem decode_jumpOffset (nnn : BitVec 12) : decode (encNNN 0xB#4 nnn) = .instr (.jumpOffset nnn) := by
  simp only [decode, fieldN1_encNNN, fieldNNN_encNNN]

theorem decode_random (x : RegIx) (nn : Byte) : decode (encXNN 0xC#4 x nn) = .instr (.random x nn) := by
  simp only [decode, fieldN1_encXNN, fieldX_encXNN, fieldNN_encXNN]

theorem decode_draw (x y : RegIx) (n : Fin 16) : decode (encXYN 0xD#4 x y (nibbleOf n)) = .instr (.draw x y n) := by
  simp only [decode, fieldN1_encXYN, fieldX_encXYN, fieldY_encXYN, fieldN_encXYN]

/-! The ALU family: under n1 = 8 the function code decides. -/

theorem decode_or (x y : RegIx) : decode (encXYN 0x8#4 x y 0x1#4) = .instr (.or x y) := by
  simp only [decode_encXYN_eight, decodeAlu, fieldX_encXYN, fieldY_encXYN, fieldN4_encXYN]

theorem decode_and (x y : RegIx) : decode (encXYN 0x8#4 x y 0x2#4) = .instr (.and x y) := by
  simp only [decode_encXYN_eight, decodeAlu, fieldX_encXYN, fieldY_encXYN, fieldN4_encXYN]

theorem decode_xor (x y : RegIx) : decode (encXYN 0x8#4 x y 0x3#4) = .instr (.xor x y) := by
  simp only [decode_encXYN_eight, decodeAlu, fieldX_encXYN, fieldY_encXYN, fieldN4_encXYN]

theorem decode_add (x y : RegIx) : decode (encXYN 0x8#4 x y 0x4#4) = .instr (.add x y) := by
  simp only [decode_encXYN_eight, decodeAlu, fieldX_encXYN, fieldY_encXYN, fieldN4_encXYN]

theorem decode_sub (x y : RegIx) : decode (encXYN 0x8#4 x y 0x5#4) = .instr (.sub x y) := by
  simp only [decode_encXYN_eight, decodeAlu, fieldX_encXYN, fieldY_encXYN, fieldN4_encXYN]

theorem decode_shr (x y : RegIx) : decode (encXYN 0x8#4 x y 0x6#4) = .instr (.shr x y) := by
  simp only [decode_encXYN_eight, decodeAlu, fieldX_encXYN, fieldY_encXYN, fieldN4_encXYN]

theorem decode_subn (x y : RegIx) : decode (encXYN 0x8#4 x y 0x7#4) = .instr (.subn x y) := by
  simp only [decode_encXYN_eight, decodeAlu, fieldX_encXYN, fieldY_encXYN, fieldN4_encXYN]

theorem decode_shl (x y : RegIx) : decode (encXYN 0x8#4 x y 0xE#4) = .instr (.shl x y) := by
  simp only [decode_encXYN_eight, decodeAlu, fieldX_encXYN, fieldY_encXYN, fieldN4_encXYN]

/-! The family Fx..: under n1 = 0xF the function code decides (R74 rows 27 to 35). -/

theorem decode_of_fieldN1_misc {w : Word16} (h1 : fieldN1 w = 0xF#4) : decode w = decodeMisc w := by
  unfold decode
  rw [h1]
  rfl

theorem decode_encXNN_misc (x : RegIx) (nn : Byte) : decode (encXNN 0xF#4 x nn) = decodeMisc (encXNN 0xF#4 x nn) :=
  decode_of_fieldN1_misc (fieldN1_encXNN 0xF#4 x nn)

theorem decode_getDelay (x : RegIx) : decode (encXNN 0xF#4 x 0x07#8) = .instr (.getDelay x) := by
  simp only [decode_encXNN_misc, decodeMisc, fieldX_encXNN, fieldNN_encXNN]

theorem decode_waitKey (x : RegIx) : decode (encXNN 0xF#4 x 0x0A#8) = .instr (.waitKey x) := by
  simp only [decode_encXNN_misc, decodeMisc, fieldX_encXNN, fieldNN_encXNN]

theorem decode_setDelay (x : RegIx) : decode (encXNN 0xF#4 x 0x15#8) = .instr (.setDelay x) := by
  simp only [decode_encXNN_misc, decodeMisc, fieldX_encXNN, fieldNN_encXNN]

theorem decode_setSound (x : RegIx) : decode (encXNN 0xF#4 x 0x18#8) = .instr (.setSound x) := by
  simp only [decode_encXNN_misc, decodeMisc, fieldX_encXNN, fieldNN_encXNN]

theorem decode_addToIndex (x : RegIx) : decode (encXNN 0xF#4 x 0x1E#8) = .instr (.addToIndex x) := by
  simp only [decode_encXNN_misc, decodeMisc, fieldX_encXNN, fieldNN_encXNN]

theorem decode_loadFontAddr (x : RegIx) : decode (encXNN 0xF#4 x 0x29#8) = .instr (.loadFontAddr x) := by
  simp only [decode_encXNN_misc, decodeMisc, fieldX_encXNN, fieldNN_encXNN]

theorem decode_storeBCD (x : RegIx) : decode (encXNN 0xF#4 x 0x33#8) = .instr (.storeBCD x) := by
  simp only [decode_encXNN_misc, decodeMisc, fieldX_encXNN, fieldNN_encXNN]

theorem decode_regDump (x : RegIx) : decode (encXNN 0xF#4 x 0x55#8) = .instr (.regDump x) := by
  simp only [decode_encXNN_misc, decodeMisc, fieldX_encXNN, fieldNN_encXNN]

theorem decode_regLoad (x : RegIx) : decode (encXNN 0xF#4 x 0x65#8) = .instr (.regLoad x) := by
  simp only [decode_encXNN_misc, decodeMisc, fieldX_encXNN, fieldNN_encXNN]

/-- Settles O1: one decoding equation for each constructor; only SysCall needs well-formedness, which takes out the two
operands whose words are Clear and Return. -/
theorem decodeOfEncodeIsTheInstruction : Obligations.DecodeOfEncodeIsTheInstruction := by
  intro i hwf
  cases i with
  | clear => exact decode_clear
  | ret => exact decode_ret
  | sysCall nnn =>
    obtain ⟨h0, hE⟩ : nnn ≠ 0x0E0#12 ∧ nnn ≠ 0x0EE#12 := by simpa [Instr.wellFormed] using hwf
    exact decode_encNNN_zero h0 hE
  | jump nnn => exact decode_jump nnn
  | call nnn => exact decode_call nnn
  | skipEqImm x nn => exact decode_skipEqImm x nn
  | skipNeqImm x nn => exact decode_skipNeqImm x nn
  | skipEqReg x y => exact (decode_encXYN_five x y 0x0#4).trans (if_pos rfl)
  | loadImm x nn => exact decode_loadImm x nn
  | addImm x nn => exact decode_addImm x nn
  | copy x y => exact decode_copy x y
  | or x y => exact decode_or x y
  | and x y => exact decode_and x y
  | xor x y => exact decode_xor x y
  | add x y => exact decode_add x y
  | sub x y => exact decode_sub x y
  | shr x y => exact decode_shr x y
  | subn x y => exact decode_subn x y
  | shl x y => exact decode_shl x y
  | skipNeqReg x y => exact (decode_encXYN_nine x y 0x0#4).trans (if_pos rfl)
  | loadIndex nnn => exact decode_loadIndex nnn
  | jumpOffset nnn => exact decode_jumpOffset nnn
  | random x nn => exact decode_random x nn
  | draw x y n => exact decode_draw x y n
  | skipKeyPressed x => exact decode_skipKeyPressed x
  | skipKeyNotPressed x => exact decode_skipKeyNotPressed x
  | getDelay x => exact decode_getDelay x
  | waitKey x => exact decode_waitKey x
  | setDelay x => exact decode_setDelay x
  | setSound x => exact decode_setSound x
  | addToIndex x => exact decode_addToIndex x
  | loadFontAddr x => exact decode_loadFontAddr x
  | storeBCD x => exact decode_storeBCD x
  | regDump x => exact decode_regDump x
  | regLoad x => exact decode_regLoad x

/-- Settles O2, by what the decoder's answer carries of the word (`decode_carries`). -/
theorem encodeOfADecodedWordIsTheWord : Obligations.EncodeOfADecodedWordIsTheWord := by
  intro w i hd
  have hc : (Decoded.instr i).Carries w := hd ▸ decode_carries w
  exact hc

/-! The fields as numbers. -/

theorem fieldN1_toNat (w : Word16) : (fieldN1 w).toNat = w.toNat / 4096 := by
  have hw := w.isLt
  simp only [fieldN1, BitVec.extractLsb'_toNat, Nat.shiftRight_eq_div_pow]
  omega

theorem fieldN4_toNat (w : Word16) : (fieldN4 w).toNat = w.toNat % 16 := by
  simp only [fieldN4, BitVec.extractLsb'_toNat, Nat.shiftRight_zero]

theorem fieldNN_toNat (w : Word16) : (fieldNN w).toNat = w.toNat % 256 := by
  simp only [fieldNN, BitVec.extractLsb'_toNat, Nat.shiftRight_zero]

/-! The function codes that no row has. -/

theorem decodeAlu_error_iff (w : Word16) : decodeAlu w = .decodeError w ↔
    w.toNat % 16 ∉ [0x0, 0x1, 0x2, 0x3, 0x4, 0x5, 0x6, 0x7, 0xE] := by
  have hcodes : decodeAlu w = .decodeError w ↔
      fieldN4 w ∉ [0x0#4, 0x1#4, 0x2#4, 0x3#4, 0x4#4, 0x5#4, 0x6#4, 0x7#4, 0xE#4] := by
    unfold decodeAlu
    split <;> simp_all
  simpa [← BitVec.toNat_inj, fieldN4_toNat] using hcodes

theorem decodeKey_error_iff (w : Word16) : decodeKey w = .decodeError w ↔ w.toNat % 256 ∉ [0x9E, 0xA1] := by
  have hcodes : decodeKey w = .decodeError w ↔ fieldNN w ∉ [0x9E#8, 0xA1#8] := by
    unfold decodeKey
    split <;> simp_all
  simpa [← BitVec.toNat_inj, fieldNN_toNat] using hcodes

theorem decodeMisc_error_iff (w : Word16) : decodeMisc w = .decodeError w ↔
    w.toNat % 256 ∉ [0x07, 0x0A, 0x15, 0x18, 0x1E, 0x29, 0x33, 0x55, 0x65] := by
  have hcodes : decodeMisc w = .decodeError w ↔
      fieldNN w ∉ [0x07#8, 0x0A#8, 0x15#8, 0x18#8, 0x1E#8, 0x29#8, 0x33#8, 0x55#8, 0x65#8] := by
    unfold decodeMisc
    split <;> simp_all
  simpa [← BitVec.toNat_inj, fieldNN_toNat] using hcodes

theorem decodeZero_ne_error (w e : Word16) : decodeZero w ≠ .decodeError e := by
  unfold decodeZero
  split
  · nofun
  · split <;> nofun

/-- Settles O4, by the first nibble of the word: five of its values have a family with words that select no row. -/
theorem illegalWordsAreTheFiveClasses : Obligations.IllegalWordsAreTheFiveClasses := by
  intro w
  have hn1 : w.toNat / 4096 = (fieldN1 w).toNat := (fieldN1_toNat w).symm
  have hn4 : fieldN4 w = 0x0#4 ↔ w.toNat % 16 = 0 := by simp [← BitVec.toNat_inj, fieldN4_toNat]
  rw [hn1]
  unfold decode
  split
  case h_1 h1 => simp [h1, decodeZero_ne_error]
  case h_6 h1 | h_10 h1 => simp [h1, hn4]
  case h_9 h1 => simp [h1, decodeAlu_error_iff]
  case h_15 h1 => simp [h1, decodeKey_error_iff]
  case h_16 =>
    have h1 : fieldN1 w = 0xF#4 := by
      simp only [imp_false] at *
      bv_omega
    simp [h1, decodeMisc_error_iff]
  -- The families in which every word is legal: no class names their first nibble.
  all_goals simp [*]

/-- Settles O5: sixteen closed words, evaluated. -/
theorem wordsOfTheSpecDecodeAsItSays : Obligations.WordsOfTheSpecDecodeAsItSays := by
  unfold Obligations.WordsOfTheSpecDecodeAsItSays
  decide

end Sys2Proof.Machine

/-! The execute phase as a whole (40_step_cycle.md R101): the error it raises in a state, what it writes when it raises
none, and that these two say everything it can change. -/

namespace Sys2Proof.Machine

/-- The fatal error of an access to the `len` bytes from `base` (20_memory.md R57). -/
def accessError (base len : Nat) : Option FatalError := (outOfRange base len).map .addressOutOfRange

/-- The fatal error that the execute phase of an instruction raises (60_exceptions.md R180, R185; 20_memory.md R57). -/
def execError (s : State) : Instr → Option FatalError
  | .ret => if s.stack = [] then some .stackUnderflow else none
  | .call _ => if s.stackFull then some .stackOverflow else none
  | .draw _ _ n => accessError s.indexAddr n.val
  | .storeBCD _ => accessError s.indexAddr 3
  | .regDump x | .regLoad x => accessError s.indexAddr (x.val + 1)
  | _ => none

/-- What an execute phase that raises no error may write (the tables of 10_state.md R24 and R34, and the storages that
R22, R26, R27, R29 and R32 give each instruction). -/
def execWrites (s : State) : Instr → Writes
  | .clear => { fb := true }
  | .sysCall _ => {}
  | .ret | .call _ => { pc := true, stack := true }
  | .jump _ | .jumpOffset _ => { pc := true }
  | .skipEqImm _ _ | .skipNeqImm _ _ | .skipEqReg _ _ | .skipNeqReg _ _ => { pc := true }
  | .skipKeyPressed _ | .skipKeyNotPressed _ => { pc := true }
  | .loadImm x _ | .addImm x _ | .random x _ | .getDelay x => { regs := [x] }
  | .copy x _ | .or x _ | .and x _ | .xor x _ => { regs := [x] }
  | .add x _ | .sub x _ | .shr x _ | .subn x _ | .shl x _ => { regs := [x, vf] }
  | .loadIndex _ | .addToIndex _ | .loadFontAddr _ => { index := true }
  | .draw _ _ _ => { regs := [vf], fb := true }
  | .waitKey x => { regs := [x], pc := true }
  | .setDelay _ => { dt := true }
  | .setSound _ => { st := true }
  | .storeBCD _ => { memLo := s.indexAddr, memLen := 3 }
  | .regDump x => { memLo := s.indexAddr, memLen := x.val + 1 }
  | .regLoad x => { regs := (List.finRange 16).filter (fun r => r.val ≤ x.val) }

/-- `Frame`, with the memory the same as data where no byte of it may be written. -/
structure ExactFrame (w : Writes) (s t : State) : Prop extends Frame w s t where
  mem_eq : w.memLen = 0 → t.mem = s.mem

/-! Frames of the updates that are no operation of their own. -/

theorem Frame.of_pc_stack (s : State) (a : Word16) (stack : List Word16) :
    Frame { pc := true, stack := true } s { s with pc := a, stack := stack } :=
  { Frame.rfl' { pc := true, stack := true } s with pc := nofun, stack := nofun }

theorem Frame.of_dt (s : State) (b : Byte) : Frame { dt := true } s { s with dt := b } :=
  { Frame.rfl' { dt := true } s with dt := nofun }

theorem Frame.of_st (s : State) (b : Byte) : Frame { st := true } s { s with st := b } :=
  { Frame.rfl' { st := true } s with st := nofun }

/-- A block load changes no register above its range. -/
theorem loadRegs_frame_range (s : State) (a : Nat) (x : RegIx) :
    Frame { regs := (List.finRange 16).filter (fun r => r.val ≤ x.val) } s (loadRegs a (x.val + 1) s) :=
  { loadRegs_frame s a (x.val + 1) with
    regs := fun r hr => by
      have hr : ¬r.val < x.val + 1 := by simpa [Nat.lt_succ_iff] using hr
      rw [loadRegs_getV a (x.val + 1) x.isLt s r, if_neg hr] }

/-! The instructions that can fail. -/

theorem exec_ret_nil {s : State} (hs : s.stack = []) : exec .ret s = raise .stackUnderflow s := by
  simp only [exec, execRet, hs]

theorem exec_ret_cons {s : State} {a : Word16} {rest : List Word16} (hs : s.stack = a :: rest) :
    exec .ret s = .next { s with pc := a, stack := rest } := by
  simp only [exec, execRet, hs]

theorem exec_call_full (nnn : BitVec 12) {s : State} (hs : s.stackFull = true) :
    exec (.call nnn) s = raise .stackOverflow s := by
  simp only [exec, execCall, hs, if_true]

theorem exec_call_push (nnn : BitVec 12) {s : State} (hs : s.stackFull = false) :
    exec (.call nnn) s = .next ((s.push s.pc).setPc (zextAddr nnn)) := by
  simp only [exec, execCall, hs, Bool.false_eq_true, if_false]

theorem exec_draw (x y : RegIx) (n : Fin 16) (s : State) :
    exec (.draw x y n) s = withinMemory s.indexAddr n.val (drawSprite x y n.val) s := rfl

theorem exec_storeBCD (x : RegIx) (s : State) : exec (.storeBCD x) s =
    withinMemory s.indexAddr 3 (fun s => s.writeBytes s.indexAddr (bcdDigits (s.getV x))) s := rfl

theorem exec_regDump (x : RegIx) (s : State) : exec (.regDump x) s =
    withinMemory s.indexAddr (x.val + 1) (fun s => s.writeBytes s.indexAddr (s.regRange x)) s := rfl

theorem exec_regLoad (x : RegIx) (s : State) : exec (.regLoad x) s =
    withinMemory s.indexAddr (x.val + 1) (fun s => loadRegs s.indexAddr (x.val + 1) s) s := rfl

theorem withinMemory_error {base len : Nat} {e : FatalError} (effect : State → State) (s : State)
    (h : accessError base len = some e) : withinMemory base len effect s = raise e s := by
  obtain ⟨addr, haddr, rfl⟩ := Option.map_eq_some_iff.mp h
  simp only [withinMemory, haddr]

theorem withinMemory_completes {base len : Nat} (effect : State → State) (s : State)
    (h : accessError base len = none) :
    (len = 0 ∨ base + len ≤ Config.memSize) ∧ withinMemory base len effect s = .next (effect s) := by
  rcases withinMemory_cases base len effect s with hin | ⟨⟨h0, hout⟩, -⟩
  · exact hin
  · simp [accessError, outOfRange_some h0 hout] at h

/-- Where `execError` names an error the execute phase raises it. -/
theorem exec_of_error {i : Instr} {s : State} {e : FatalError} (he : execError s i = some e) : exec i s = raise e s := by
  cases i with
  | ret =>
    obtain ⟨hs, rfl⟩ : s.stack = [] ∧ .stackUnderflow = e := by simpa [execError] using he
    exact exec_ret_nil hs
  | call nnn =>
    obtain ⟨hs, rfl⟩ : s.stackFull = true ∧ .stackOverflow = e := by simpa [execError] using he
    exact exec_call_full nnn hs
  | draw _ _ _ | storeBCD _ | regDump _ | regLoad _ => exact withinMemory_error _ s he
  | _ => exact absurd he nofun

theorem skipIf_exactFrame (s : State) (taken : Bool) : ExactFrame { pc := true } s (skipIf taken s) :=
  ⟨skipIf_frame s taken, fun _ => by rw [skipIf_eq, State.setPc_mem]⟩

theorem exec_waitKey_none (x : RegIx) {s : State} (hk : s.newKeys = 0#16) :
    exec (.waitKey x) s = .next (s.setPc (s.pc - 2#16)) := by
  simp only [exec, execWaitKey, hk, if_true]

theorem exec_waitKey_new (x : RegIx) {s : State} (hk : s.newKeys ≠ 0#16) :
    exec (.waitKey x) s = .next (s.setV x (BitVec.ofNat 8 (pickKey s.newKeys s.input.pick))) := by
  simp only [exec, execWaitKey, hk, if_false]

/-- Where `execError` names none the execute phase stays within `execWrites`. -/
theorem exec_exactFrame {i : Instr} {s t : State} (he : execError s i = none) (h : exec i s = .next t) :
    ExactFrame (execWrites s i) s t := by
  cases i with
  | clear => cases h; exact ⟨Frame.of_fb s _, fun _ => rfl⟩
  | sysCall _ => cases h; exact ⟨Frame.rfl' {} s, fun _ => rfl⟩
  | ret =>
    obtain ⟨a, rest, hs⟩ : ∃ a rest, s.stack = a :: rest := List.exists_cons_of_ne_nil (by simpa [execError] using he)
    cases (exec_ret_cons hs).symm.trans h
    exact ⟨Frame.of_pc_stack s a rest, fun _ => rfl⟩
  | call nnn =>
    cases (exec_call_push nnn (by simpa [execError] using he)).symm.trans h
    exact ⟨Frame.of_pc_stack s (zextAddr nnn) (s.pc :: s.stack), fun _ => rfl⟩
  | jump _ | jumpOffset _ => cases h; exact ⟨State.setPc_frame s _, fun _ => rfl⟩
  | skipEqImm _ _ | skipNeqImm _ _ | skipEqReg _ _ | skipNeqReg _ _ | skipKeyPressed _ | skipKeyNotPressed _ =>
    cases h; exact skipIf_exactFrame s _
  | loadImm x _ | addImm x _ | random x _ | getDelay x | copy x _ | or x _ | and x _ | xor x _ =>
    cases h; exact ⟨State.setV_frame s x _, fun _ => rfl⟩
  | add x _ | sub x _ | shr x _ | subn x _ | shl x _ => cases h; exact ⟨flagThenResult_frame s x _ _, fun _ => rfl⟩
  | loadIndex _ | addToIndex _ | loadFontAddr _ => cases h; exact ⟨State.setI_frame s _, fun _ => rfl⟩
  | draw x y n =>
    cases (withinMemory_completes _ s he).2.symm.trans h
    exact ⟨drawSprite_frame s x y n.val, fun _ => rfl⟩
  | waitKey x =>
    by_cases hk : s.newKeys = 0#16
    · cases (exec_waitKey_none x hk).symm.trans h
      exact ⟨{ State.setPc_frame s _ with regs := fun _ _ => rfl }, fun _ => rfl⟩
    · cases (exec_waitKey_new x hk).symm.trans h
      exact ⟨{ State.setV_frame s x _ with pc := fun _ => rfl }, fun _ => rfl⟩
  | setDelay _ => cases h; exact ⟨Frame.of_dt s _, fun _ => rfl⟩
  | setSound _ => cases h; exact ⟨Frame.of_st s _, fun _ => rfl⟩
  | storeBCD x =>
    obtain ⟨hin, hexec⟩ := withinMemory_completes (fun s => s.writeBytes s.indexAddr (bcdDigits (s.getV x))) s he
    cases hexec.symm.trans h
    exact ⟨State.writeBytes_frame s s.indexAddr (bcdDigits (s.getV x)) (hin.resolve_left nofun), nofun⟩
  | regDump x =>
    obtain ⟨hin, hexec⟩ := withinMemory_completes (fun s => s.writeBytes s.indexAddr (s.regRange x)) s he
    cases hexec.symm.trans h
    have hframe := State.writeBytes_frame s s.indexAddr (s.regRange x)
    rw [State.regRange_length] at hframe
    exact ⟨hframe (hin.resolve_left nofun), nofun⟩
  | regLoad x =>
    cases (withinMemory_completes _ s he).2.symm.trans h
    exact ⟨loadRegs_frame_range s s.indexAddr x, fun _ => by rw [loadRegs_eq]⟩

/-- Everything an execute phase can do. -/
theorem exec_cases {i : Instr} {s t : State} (h : exec i s = .next t) :
    (∃ e, execError s i = some e ∧ t = { s with halted := some e }) ∨
    (execError s i = none ∧ ExactFrame (execWrites s i) s t) := by
  cases he : execError s i with
  | none => exact .inr ⟨rfl, exec_exactFrame he h⟩
  | some e =>
    cases (exec_of_error he).symm.trans h
    exact .inl ⟨e, rfl, rfl⟩

/-- An execute phase, a failing one included, writes at most what `execWrites` names and `halted`. -/
theorem exec_changes {i : Instr} {s t : State} (h : exec i s = .next t) :
    ExactFrame { execWrites s i with halted := true } s t := by
  obtain ⟨e, -, rfl⟩ | ⟨-, hframe⟩ := exec_cases h
  · exact ⟨{ Frame.rfl' { execWrites s i with halted := true } s with halted := nofun }, fun _ => rfl⟩
  · exact ⟨{ hframe.toFrame with halted := nofun }, hframe.mem_eq⟩

theorem execWrites_halted (s : State) (i : Instr) : (execWrites s i).halted = false := by
  cases i <;> rfl

/-- An execute phase that raises no error leaves `halted` as it is. -/
theorem exec_halted_of_no_error {i : Instr} {s t : State} (he : execError s i = none) (h : exec i s = .next t) :
    t.halted = s.halted :=
  (exec_exactFrame he h).halted (execWrites_halted s i)

/-- In a running machine the error recorded after the execute phase is the one `execError` names. -/
theorem exec_halted_eq {i : Instr} {s t : State} (hh : s.halted = none) (h : exec i s = .next t) :
    t.halted = execError s i := by
  obtain ⟨e, he, rfl⟩ | ⟨he, -⟩ := exec_cases h
  · exact he.symm
  · rw [he, exec_halted_of_no_error he h, hh]

/-- Settles O14: an execute phase either raises its error, which writes `halted` alone, or leaves `halted` as it is. -/
theorem aFailingInstructionWritesNothing : Obligations.AFailingInstructionWritesNothing := by
  intro i s t hh h hhalted
  obtain ⟨e, -, rfl⟩ | ⟨he, -⟩ := exec_cases h
  · exact ⟨e, rfl⟩
  · exact absurd ((exec_halted_of_no_error he h).trans hh) hhalted

/-- The range check of a block that is not empty, as the spec words it: its last byte lies above 0xFFF. -/
theorem accessError_succ_iff {base k : Nat} {e : FatalError} :
    accessError base (k + 1) = some e ↔ e = .addressOutOfRange (max base 0x1000) ∧ 0xFFF < base + k := by
  by_cases hout : 0xFFF < base + k
  · rw [accessError, outOfRange_some (by omega) (by simp only [Config.memSize]; omega)]
    simp [hout, eq_comm (a := e)]
  · rw [accessError, outOfRange_none (.inr (by simp only [Config.memSize]; omega))]
    simp [hout]

theorem accessError_iff {base n : Nat} {e : FatalError} :
    accessError base n = some e ↔ e = .addressOutOfRange (max base 0x1000) ∧ 1 ≤ n ∧ 0xFFF < base + n - 1 := by
  cases n with
  | zero => simp [accessError, outOfRange]
  | succ k => simp [accessError_succ_iff]

/-- Settles O15: the error recorded is the one `execError` names, which is read off for each instruction that has one. -/
theorem fatalErrorsOfTheExecutePhase : Obligations.FatalErrorsOfTheExecutePhase := by
  intro i s e hh
  have herror : (∃ t, exec i s = .next t ∧ t.halted = some e) ↔ execError s i = some e := by
    obtain ⟨t, h⟩ := exec_next i s
    simp [h, exec_halted_eq hh h]
  rw [herror]
  cases i with
  | ret => simp [execError, eq_comm (a := e)]
  | call nnn => simp [execError, State.stackFull_iff, eq_comm (a := e), ← and_assoc]
  | draw x y n => simp [execError, accessError_iff, State.indexAddr]
  | storeBCD x | regDump x | regLoad x => simp [execError, accessError_succ_iff, State.indexAddr]
  | _ => simp [execError]

end Sys2Proof.Machine

/-! What each storage and each register can be written by (10_state.md), and what no instruction reads. -/

namespace Sys2Proof.Machine

/-! The instructions that `execWrites` gives each storage to. -/

theorem execWrites_fb {s : State} {i : Instr} (h : (execWrites s i).fb = true) :
    i = .clear ∨ ∃ x y n, i = .draw x y n := by
  cases i <;> simp [execWrites] at h ⊢

theorem execWrites_stack {s : State} {i : Instr} (h : (execWrites s i).stack = true) :
    i = .ret ∨ ∃ nnn, i = .call nnn := by
  cases i <;> simp [execWrites] at h ⊢

theorem execWrites_memLen {s : State} {i : Instr} (h : (execWrites s i).memLen ≠ 0) :
    ∃ x, i = .storeBCD x ∨ i = .regDump x := by
  cases i <;> simp [execWrites] at h ⊢

theorem execWrites_index {s : State} {i : Instr} (h : (execWrites s i).index = true) :
    (∃ nnn, i = .loadIndex nnn) ∨ ∃ x, i = .addToIndex x ∨ i = .loadFontAddr x := by
  cases i <;> simp [execWrites] at h ⊢

theorem execWrites_dt {s : State} {i : Instr} (h : (execWrites s i).dt = true) : ∃ x, i = .setDelay x := by
  cases i <;> simp [execWrites] at h ⊢

theorem execWrites_st {s : State} {i : Instr} (h : (execWrites s i).st = true) : ∃ x, i = .setSound x := by
  cases i <;> simp [execWrites] at h ⊢

theorem execWrites_regs {s : State} {i : Instr} {r : RegIx} (h : r ∈ (execWrites s i).regs) :
    i.destination r = true ∨ (r = 15 ∧ i.writesFlag = true) := by
  cases i <;> simp_all [execWrites, Instr.destination, Instr.writesFlag, eq_comm (a := r)]

/-- Settles O49: a storage that differs after the execute phase is one that `execWrites` names. -/
theorem whoWritesEachStorage : Obligations.WhoWritesEachStorage := by
  intro i s t h
  have hframe := exec_changes h
  refine ⟨fun hne => execWrites_fb (s := s) ?fb, fun hne => execWrites_stack (s := s) ?stack,
    fun hne => execWrites_memLen (s := s) ?mem, fun hne => execWrites_index (s := s) ?index,
    fun hne => execWrites_dt (s := s) ?dt, fun hne => execWrites_st (s := s) ?st,
    hframe.keysCur, hframe.keysPrev, hframe.lastTick, hframe.cfg⟩
  case fb => exact Bool.of_not_eq_false (mt hframe.fb hne)
  case stack => exact Bool.of_not_eq_false (mt hframe.stack hne)
  case mem => exact mt hframe.mem_eq hne
  case index => exact Bool.of_not_eq_false (mt hframe.index hne)
  case dt => exact Bool.of_not_eq_false (mt hframe.dt hne)
  case st => exact Bool.of_not_eq_false (mt hframe.st hne)

/-- Settles O50: a register that differs after the execute phase is one that `execWrites` names. -/
theorem whoWritesEachRegister : Obligations.WhoWritesEachRegister := by
  intro i s t r h hne
  exact execWrites_regs (Decidable.not_not.mp (mt ((exec_changes h).regs r) hne))

/-! What no instruction reads: the update of `last_tick`, ST and `keys_prev` commutes with every operation. -/

/-- `s` with another `last_tick`, another ST and another previous snapshot. -/
def withHidden (k : Nat) (b : Byte) (keys : Word16) (s : State) : State :=
  { s with lastTick := k, st := b, keysPrev := keys }

section
variable {k : Nat} {b : Byte} {keys : Word16}

theorem withHidden_skipIf (s : State) (taken : Bool) :
    skipIf taken (withHidden k b keys s) = withHidden k b keys (skipIf taken s) := by
  cases taken <;> rfl

theorem withHidden_writeBytes (s : State) (a : Nat) (vs : List Byte) :
    (withHidden k b keys s).writeBytes a vs = withHidden k b keys (s.writeBytes a vs) := by
  induction vs generalizing a s with
  | nil => rfl
  | cons v vs ih => exact ih (s.writeByte a v) (a + 1)

theorem withHidden_readBytes (s : State) (a len : Nat) :
    (withHidden k b keys s).readBytes a len = s.readBytes a len := by
  induction len generalizing a with
  | zero => rfl
  | succ len ih => exact congrArg (s.readByte a :: ·) (ih (a + 1))

theorem withHidden_loadRegs (s : State) (a n : Nat) :
    loadRegs a n (withHidden k b keys s) = withHidden k b keys (loadRegs a n s) := by
  induction n with
  | zero => rfl
  | succ n ih => simp only [loadRegs, ih]; rfl

theorem withHidden_drawSprite (s : State) (x y : RegIx) (n : Nat) :
    drawSprite x y n (withHidden k b keys s) = withHidden k b keys (drawSprite x y n s) := by
  have hsprite := withHidden_readBytes (k := k) (b := b) (keys := keys) s s.indexAddr n
  unfold drawSprite
  rw [show (withHidden k b keys s).indexAddr = s.indexAddr from rfl, hsprite]
  rfl

theorem withHidden_withinMemory {base len : Nat} {effect : State → State} {s t : State}
    (hcomm : effect (withHidden k b keys s) = withHidden k b keys (effect s))
    (h : withinMemory base len effect s = .next t) :
    withinMemory base len effect (withHidden k b keys s) = .next (withHidden k b keys t) := by
  obtain ⟨hin, hexec⟩ | ⟨⟨h0, hout⟩, hexec⟩ := withinMemory_cases base len effect s
  · cases hexec.symm.trans h
    exact (withinMemory_in effect _ hin).trans (congrArg _ hcomm)
  · cases hexec.symm.trans h
    exact withinMemory_out effect _ h0 hout

/-- Every instruction but the one that writes ST and the one that reads the previous snapshot. -/
theorem exec_withHidden {i : Instr} {s t : State} (hst : ∀ x, i ≠ .setSound x) (hkey : ∀ x, i ≠ .waitKey x)
    (h : exec i s = .next t) : exec i (withHidden k b keys s) = .next (withHidden k b keys t) := by
  cases i with
  | ret =>
    cases hs : s.stack with
    | nil => cases (exec_ret_nil hs).symm.trans h; exact exec_ret_nil hs
    | cons a rest => cases (exec_ret_cons hs).symm.trans h; exact exec_ret_cons hs
  | call nnn =>
    cases hs : s.stackFull with
    | true => cases (exec_call_full nnn hs).symm.trans h; exact exec_call_full nnn hs
    | false => cases (exec_call_push nnn hs).symm.trans h; exact exec_call_push nnn hs
  | skipEqImm _ _ | skipNeqImm _ _ | skipEqReg _ _ | skipNeqReg _ _ | skipKeyPressed _ | skipKeyNotPressed _ =>
    cases h; exact congrArg _ (withHidden_skipIf s _)
  | draw x y n => exact withHidden_withinMemory (withHidden_drawSprite s x y n.val) h
  | storeBCD x | regDump x => exact withHidden_withinMemory (withHidden_writeBytes s s.indexAddr _) h
  | regLoad x => exact withHidden_withinMemory (withHidden_loadRegs s s.indexAddr (x.val + 1)) h
  | setSound x => exact absurd rfl (hst x)
  | waitKey x => exact absurd rfl (hkey x)
  | _ => cases h; rfl

/-- WaitKey reads the previous snapshot, but neither of the other two. -/
theorem exec_waitKey_withHidden (x : RegIx) {s t : State} (h : exec (.waitKey x) s = .next t) :
    exec (.waitKey x) (withHidden k b s.keysPrev s) = .next (withHidden k b s.keysPrev t) := by
  by_cases hk : s.newKeys = 0#16
  · cases (exec_waitKey_none x hk).symm.trans h; exact exec_waitKey_none x hk
  · cases (exec_waitKey_new x hk).symm.trans h; exact exec_waitKey_new x hk

end

/-- Settles O51: `exec_withHidden` with two of the three fields at what they hold, which the execute phase leaves; SetSound
and WaitKey on their own. -/
theorem hiddenStateIsNotRead : Obligations.HiddenStateIsNotRead := by
  intro i s t k b keys h
  by_cases hsound : ∃ x, i = .setSound x
  · obtain ⟨x, rfl⟩ := hsound
    cases h
    exact ⟨rfl, fun hne => absurd rfl (hne x), fun _ => rfl⟩
  have hst : t.st = s.st := (exec_changes h).st (Bool.eq_false_of_not_eq_true (mt execWrites_st hsound))
  have hprev : t.keysPrev = s.keysPrev := (exec_changes h).keysPrev
  have hother : ∀ k b keys, (∀ x, i ≠ .waitKey x) →
      exec i (withHidden k b keys s) = .next (withHidden k b keys t) :=
    fun k b keys hkey => exec_withHidden (not_exists.mp hsound) hkey h
  have htimers : ∀ k b, exec i (withHidden k b s.keysPrev s) = .next (withHidden k b s.keysPrev t) := fun k b => by
    by_cases hkey : ∃ x, i = .waitKey x
    · obtain ⟨x, rfl⟩ := hkey
      exact exec_waitKey_withHidden x h
    · exact hother k b s.keysPrev (not_exists.mp hkey)
  refine ⟨(htimers k s.st).trans ?lastTick, fun _ => (htimers s.lastTick b).trans ?st,
    fun hkey => (hother s.lastTick s.st keys hkey).trans ?keysPrev⟩
  case lastTick => rw [← hst, ← hprev]; rfl
  case st => rw [← (exec_changes h).lastTick, ← hprev]; rfl
  case keysPrev => rw [← (exec_changes h).lastTick, ← hst]; rfl

end Sys2Proof.Machine

/-! The invariant (10_state.md R39): one lemma for each of its clauses over the execute phase, which starts from a `pc` that
the fetch advanced to at least 2 and at most 0x1000. -/

namespace Sys2Proof.Machine

theorem skipIf_pc_le (s : State) (taken : Bool) : (skipIf taken s).pc.toNat ≤ s.pc.toNat + 2 := by
  cases taken with
  | false => exact Nat.le_add_right _ 2
  | true => exact (BitVec.toNat_add s.pc 2#16).trans_le (Nat.mod_le _ _)

/-- R39 (b): the largest `pc` is that of a JumpOffset, 0xFF + 0xFFF. -/
theorem exec_pc_range {i : Instr} {s t : State} (hlo : 2 ≤ s.pc.toNat) (hhi : s.pc.toNat ≤ 0x1000)
    (hstack : ∀ a ∈ s.stack, a.toNat ≤ 0x1000) (h : exec i s = .next t) : t.pc.toNat ≤ 0x10FE := by
  have haddr : ∀ nnn : BitVec 12, (zextAddr nnn).toNat ≤ 0xFFF := fun nnn => by
    rw [zextAddr_toNat]; omega
  cases i with
  | ret =>
    cases hs : s.stack with
    | nil => cases (exec_ret_nil hs).symm.trans h; exact hhi.trans (by decide)
    | cons a rest =>
      cases (exec_ret_cons hs).symm.trans h
      exact (hstack a (hs ▸ List.mem_cons_self)).trans (by decide)
  | call nnn =>
    cases hs : s.stackFull with
    | true => cases (exec_call_full nnn hs).symm.trans h; exact hhi.trans (by decide)
    | false => cases (exec_call_push nnn hs).symm.trans h; exact (haddr nnn).trans (by decide)
  | jump nnn => cases h; exact (haddr nnn).trans (by decide)
  | jumpOffset nnn =>
    cases h
    have hbyte : (zextByte (s.getV 0)).toNat ≤ 0xFF := by rw [zextByte_toNat]; omega
    have hsum := Nat.add_le_add hbyte (haddr nnn)
    exact (BitVec.toNat_add _ _).trans_le ((Nat.mod_le _ _).trans hsum)
  | skipEqImm _ _ | skipNeqImm _ _ | skipEqReg _ _ | skipNeqReg _ _ | skipKeyPressed _ | skipKeyNotPressed _ =>
    cases h; exact (skipIf_pc_le s _).trans (by omega)
  | waitKey x =>
    by_cases hk : s.newKeys = 0#16
    · cases (exec_waitKey_none x hk).symm.trans h
      rw [State.setPc_pc]; bv_omega
    · cases (exec_waitKey_new x hk).symm.trans h
      exact hhi.trans (by decide)
  | _ => rw [(exec_changes h).pc rfl]; omega

/-- R39 (c): Call pushes the advanced `pc`. -/
theorem exec_stack_entries {i : Instr} {s t : State} (hhi : s.pc.toNat ≤ 0x1000)
    (hstack : ∀ a ∈ s.stack, a.toNat ≤ 0x1000) (h : exec i s = .next t) : ∀ a ∈ t.stack, a.toNat ≤ 0x1000 := by
  cases i with
  | ret =>
    cases hs : s.stack with
    | nil => cases (exec_ret_nil hs).symm.trans h; exact hstack
    | cons a rest =>
      cases (exec_ret_cons hs).symm.trans h
      exact fun b hb => hstack b (hs ▸ List.mem_cons_of_mem a hb)
  | call nnn =>
    cases hs : s.stackFull with
    | true => cases (exec_call_full nnn hs).symm.trans h; exact hstack
    | false =>
      cases (exec_call_push nnn hs).symm.trans h
      exact List.forall_mem_cons.mpr ⟨hhi, hstack⟩
  | _ => rw [(exec_changes h).stack rfl]; exact hstack

/-- R39 (d): Call pushes only where the stack is not full. -/
theorem exec_stack_depth {i : Instr} {s t : State} {depth : Nat} (hcfg : s.cfg.stackDepth = some depth)
    (hdepth : s.stack.length ≤ depth) (h : exec i s = .next t) : t.stack.length ≤ depth := by
  cases i with
  | ret =>
    cases hs : s.stack with
    | nil => cases (exec_ret_nil hs).symm.trans h; exact hdepth
    | cons a rest =>
      cases (exec_ret_cons hs).symm.trans h
      rw [hs] at hdepth
      exact Nat.le_of_succ_le hdepth
  | call nnn =>
    cases hs : s.stackFull with
    | true => cases (exec_call_full nnn hs).symm.trans h; exact hdepth
    | false =>
      cases (exec_call_push nnn hs).symm.trans h
      have hroom : ¬depth ≤ s.stack.length := fun hle => by
        rw [s.stackFull_iff.mpr ⟨depth, hcfg, hle⟩] at hs
        exact nomatch hs
      exact not_le.mp hroom
  | _ => rw [(exec_changes h).stack rfl]; exact hdepth

/-- The canonical form (log 16): the two instructions that store do it by `writeBytes`. -/
theorem exec_mem_canonical {i : Instr} {s t : State} (hmem : Memory.wf s.memBase s.mem) (h : exec i s = .next t) :
    Memory.wf s.memBase t.mem := by
  by_cases hw : (execWrites s i).memLen = 0
  · rw [(exec_changes h).mem_eq hw]; exact hmem
  · obtain ⟨x, rfl | rfl⟩ := execWrites_memLen hw
    all_goals
      exact withinMemory_induct (P := fun t => Memory.wf s.memBase t.mem) h
        (State.writeBytes_wf _ _ s hmem) (fun _ => hmem)

/-- An access at a 16-bit address records an address that exists above memory. -/
theorem addressOutOfRange_legal (cfg : Config.Params) (a : Word16) :
    (FatalError.addressOutOfRange (max a.toNat Config.memSize)).legal cfg := by
  have ha := a.isLt
  exact ⟨Nat.le_max_right _ _, by simp only [Config.memSize]; omega⟩

/-- R180: what an error of the execute phase records is legal. -/
theorem execError_legal {i : Instr} {s : State} {e : FatalError} (he : execError s i = some e) : e.legal s.cfg := by
  have haccess : ∀ len, accessError s.indexAddr len = some e → e.legal s.cfg := fun len hlen => by
    obtain ⟨rfl, -⟩ := accessError_iff.mp hlen
    exact addressOutOfRange_legal s.cfg s.i
  cases i with
  | ret =>
    obtain ⟨-, rfl⟩ : s.stack = [] ∧ .stackUnderflow = e := by simpa [execError] using he
    exact trivial
  | call nnn =>
    obtain ⟨hfull, rfl⟩ : s.stackFull = true ∧ .stackOverflow = e := by simpa [execError] using he
    obtain ⟨depth, hcfg, -⟩ := s.stackFull_iff.mp hfull
    exact fun hnone => nomatch hnone.symm.trans hcfg
  | draw _ _ _ | storeBCD _ | regDump _ | regLoad _ => exact haccess _ he
  | _ => exact absurd he nofun

theorem exec_inv {i : Instr} {s t : State} (hs : s.Inv) (hlo : 2 ≤ s.pc.toNat) (hhi : s.pc.toNat ≤ 0x1000)
    (hh : s.halted = none) (h : exec i s = .next t) : t.Inv := by
  have hcfg : t.cfg = s.cfg := (exec_changes h).cfg
  have hbase : t.memBase = s.memBase := by simp only [State.memBase, hcfg]
  refine ⟨exec_pc_range hlo hhi hs.stack_entries h, exec_stack_entries hhi hs.stack_entries h, fun depth hd => ?depth,
    hbase ▸ exec_mem_canonical hs.mem_canonical h, fun e he => ?legal⟩
  case depth =>
    have hd : s.cfg.stackDepth = some depth := hcfg ▸ hd
    exact exec_stack_depth hd (hs.stack_depth depth hd) h
  case legal =>
    rw [hcfg]
    exact execError_legal ((exec_halted_eq hh h).symm.trans he)

/-! The other phases. -/

theorem State.Inv.takeInput {s : State} (hs : s.Inv) : s.takeInput.Inv :=
  ⟨hs.pc_range, hs.stack_entries, hs.stack_depth, hs.mem_canonical, hs.halted_legal⟩

theorem State.Inv.beginStep {s : State} (hs : s.Inv) : (beginStep s).Inv :=
  ⟨hs.pc_range, hs.stack_entries, hs.stack_depth, hs.mem_canonical, hs.halted_legal⟩

theorem State.Inv.setPc {s : State} (hs : s.Inv) {a : Word16} (ha : a.toNat ≤ 0x10FE) : (s.setPc a).Inv :=
  ⟨ha, hs.stack_entries, hs.stack_depth, hs.mem_canonical, hs.halted_legal⟩

/-- Where a fetch is valid. -/
theorem State.Inv.advancePc {s : State} (hs : s.Inv) (hp : s.pc.toNat ≤ Config.lastFetch) : (advancePc s).Inv :=
  hs.setPc ((advancePc_pc_toNat hp).trans_le (by simp only [Config.lastFetch] at hp; omega))

theorem State.Inv.raise {s : State} (hs : s.Inv) {e : FatalError} (he : e.legal s.cfg) :
    State.Inv { s with halted := some e } :=
  ⟨hs.pc_range, hs.stack_entries, hs.stack_depth, hs.mem_canonical, fun _ he' => Option.some.inj he' ▸ he⟩

theorem State.Inv.report {s : State} (hs : s.Inv) (redraw : Bool) : (reportPhase redraw s).Inv :=
  ⟨hs.pc_range, hs.stack_entries, hs.stack_depth, hs.mem_canonical, hs.halted_legal⟩

/-- A decode error records a word that does not decode. -/
theorem decode_error_legal {w e : Word16} (cfg : Config.Params) (hd : decode w = .decodeError e) :
    (FatalError.decodeError e).legal cfg := by
  have hcarries : (Decoded.decodeError e).Carries w := hd ▸ decode_carries w
  obtain rfl : e = w := hcarries
  exact hd

/-- Settles O52, phase by phase: the report changes nothing the invariant speaks of, an error of the fetch or the decoder
is legal, and the execute phase keeps each clause. -/
theorem everyStepKeepsTheInvariant : Obligations.EveryStepKeepsTheInvariant := by
  intro s t hs hstep
  have hbegin : (beginStep s.takeInput).Inv := hs.takeInput.beginStep
  obtain ⟨e, -, h⟩ | ⟨-, -, h⟩ | ⟨-, hp, w, hw, h⟩ | ⟨hh, hp, i, u, -, hexec, h⟩ := step_cases s
  · cases h.symm.trans hstep
    exact hs.takeInput.report _
  · cases h.symm.trans hstep
    exact (hbegin.raise (addressOutOfRange_legal _ s.pc)).report _
  · cases h.symm.trans hstep
    exact ((hbegin.advancePc hp).raise (decode_error_legal _ hw)).report _
  · cases h.symm.trans hstep
    have hadv := advancePc_pc_toNat (s := beginStep s.takeInput) hp
    have hpc : s.pc.toNat ≤ 4094 := hp
    rw [beginStep_pc, State.takeInput_pc] at hadv
    exact (exec_inv (hbegin.advancePc hp) (by omega) (by omega) hh hexec).report _

/-- Settles O53: after reset `pc` is 0x200, the stack and the memory's list are empty, and no error is recorded. -/
theorem theInvariantHoldsAfterReset : Obligations.TheInvariantHoldsAfterReset := by
  have hreset : ∀ (t0 : Nat) (cfg : Config.Params), (State.resetAt t0 cfg).Inv := fun t0 cfg =>
    ⟨(by decide : (0x200#16).toNat ≤ 0x10FE), nofun, fun depth _ => Nat.zero_le depth, State.resetAt_mem_wf t0 cfg, nofun⟩
  exact ⟨hreset 0 Config.defaultParams, hreset⟩

end Sys2Proof.Machine

/-! The step (40_step_cycle.md R95 to R103; 60_exceptions.md R186, R187): the phases around the execute phase. -/

namespace Sys2Proof.Machine

/-- Settles O6: the two bytes of the fetched word are the two halves of their concatenation. -/
theorem fetchIsBigEndian : Obligations.FetchIsBigEndian := by
  intro s
  exact ⟨BitVec.extractLsb'_append_eq_left, BitVec.extractLsb'_append_eq_right⟩

/-- The next state of a running step that executes an instruction, in terms of its execute phase. -/
theorem step_of_instr {s : State} {i : Instr} (hh : s.halted = none) (hp : s.pc.toNat ≤ Config.lastFetch)
    (hd : decode s.nextWord = .instr i) :
    ∃ t, exec i (advancePc (beginStep s.takeInput)) = .next t ∧ step s = .next (reportPhase (requestsRedraw i) t) := by
  obtain ⟨e, he, -⟩ | ⟨-, hlt, -⟩ | ⟨-, -, w, hw, -⟩ | ⟨-, -, j, t, hj, hexec, hstep⟩ := step_cases s
  · simp [hh] at he
  · omega
  · simp [hd] at hw
  · obtain rfl : i = j := by simpa [hd] using hj
    exact ⟨t, hexec, hstep⟩

/-- Settles O7, by the outcome of the execute phase. -/
theorem stepRunsTheDecodedInstruction : Obligations.StepRunsTheDecodedInstruction := by
  intro s i hh hp hd
  obtain ⟨t, hexec, hstep⟩ := step_of_instr hh hp hd
  exact hstep.trans (congrArg (reportOutcome (requestsRedraw i)) hexec).symm

/-! Phase 1. -/

theorem countDown_toNat (b : Byte) (ticks : Nat) : (countDown b ticks).toNat = b.toNat - ticks := by
  have hb := b.isLt
  simp only [countDown, BitVec.toNat_ofNat]
  omega

/-- `last_tick` moves by whole periods, none included. -/
theorem timerPhase_lastTick_eq (s : State) : (timerPhase s).lastTick = s.lastTick + s.ticks * s.cfg.tickPeriod := by
  rw [timerPhase_lastTick]
  split
  · rfl
  · next hnone => simp [Nat.lt_one_iff.mp (not_le.mp hnone)]

theorem beginStep_lastTick (s : State) :
    (beginStep s.takeInput).lastTick = s.lastTick + s.nextTicks * s.cfg.tickPeriod := timerPhase_lastTick_eq s.takeInput

theorem beginStep_dt_toNat (s : State) : (beginStep s.takeInput).dt.toNat = s.dt.toNat - s.nextTicks :=
  countDown_toNat s.dt _

theorem beginStep_st_toNat (s : State) : (beginStep s.takeInput).st.toNat = s.st.toNat - s.nextTicks :=
  countDown_toNat s.st _

/-- A running step that executes no instruction leaves the timers as phase 1 left them. -/
theorem step_timers_of_no_instr {s : State} (hh : s.halted = none)
    (hno : Config.lastFetch < s.pc.toNat ∨ ∀ i, decode s.nextWord ≠ .instr i) :
    ∃ t, step s = .next t ∧ t.lastTick = (beginStep s.takeInput).lastTick ∧ t.dt = (beginStep s.takeInput).dt ∧
      t.st = (beginStep s.takeInput).st := by
  obtain ⟨e, he, -⟩ | ⟨-, -, h⟩ | ⟨-, -, w, -, h⟩ | ⟨-, hp, i, t, hi, -, -⟩ := step_cases s
  · simp [hh] at he
  · exact ⟨_, h, rfl, rfl, rfl⟩
  · exact ⟨_, h, rfl, rfl, rfl⟩
  · exact absurd hi (hno.resolve_left (not_lt.mpr hp) i)

/-- Settles O9: phase 1 charges the ticks; after it only SetDelay writes DT and only SetSound ST. -/
theorem everyRunningStepChargesWholeTicks : Obligations.EveryRunningStepChargesWholeTicks := by
  intro s hh
  by_cases hinstr : s.pc.toNat ≤ Config.lastFetch ∧ ∃ i, decode s.nextWord = .instr i
  · obtain ⟨hp, i, hd⟩ := hinstr
    obtain ⟨t, hexec, hstep⟩ := step_of_instr hh hp hd
    have hframe := exec_changes hexec
    have hp' : ¬4094 < s.pc.toNat := not_lt.mpr hp
    refine ⟨_, hstep, hframe.lastTick.trans (beginStep_lastTick s), fun x _ hx => ?setDelay, fun hno => ?dt,
      fun x _ hx => ?setSound, fun hno => ?st⟩
    case setDelay =>
      obtain rfl : i = .setDelay x := by simpa [hd] using hx
      cases hexec; rfl
    case setSound =>
      obtain rfl : i = .setSound x := by simpa [hd] using hx
      cases hexec; rfl
    case dt =>
      have hdt : t.dt = (beginStep s.takeInput).dt := hframe.dt (Bool.eq_false_of_not_eq_true (fun hw =>
        (execWrites_dt hw).elim fun x hx => hno.resolve_left hp' x (hx ▸ hd)))
      exact (congrArg BitVec.toNat hdt).trans (beginStep_dt_toNat s)
    case st =>
      have hst : t.st = (beginStep s.takeInput).st := hframe.st (Bool.eq_false_of_not_eq_true (fun hw =>
        (execWrites_st hw).elim fun x hx => hno.resolve_left hp' x (hx ▸ hd)))
      exact (congrArg BitVec.toNat hst).trans (beginStep_st_toNat s)
  · have hno : Config.lastFetch < s.pc.toNat ∨ ∀ i, decode s.nextWord ≠ .instr i :=
      (not_and_or.mp hinstr).imp not_le.mp not_exists.mp
    obtain ⟨t, hstep, hlast, hdt, hst⟩ := step_timers_of_no_instr hh hno
    refine ⟨t, hstep, hlast.trans (beginStep_lastTick s), fun x hp hx => absurd ⟨hp, _, hx⟩ hinstr,
      fun _ => ?_, fun x hp hx => absurd ⟨hp, _, hx⟩ hinstr, fun _ => ?_⟩
    · rw [hdt]; exact beginStep_dt_toNat s
    · rw [hst]; exact beginStep_st_toNat s

/-- Settles O10: what is left uncharged is the remainder of the division by TICK_PERIOD. -/
theorem lessThanOneTickStaysUncharged : Obligations.LessThanOneTickStaysUncharged := by
  intro s hh hle
  obtain ⟨t, hstep, hlast, -⟩ := everyRunningStepChargesWholeTicks s hh
  have hdiv := Nat.div_add_mod' (s.nextInput.now - s.lastTick) s.cfg.tickPeriod
  have hmod := Nat.mod_lt (s.nextInput.now - s.lastTick) s.cfg.tickPeriod_pos
  exact ⟨t, hstep, by omega, by omega⟩

/-! Steps that end before the execute phase. -/

/-- Settles O11, by the whole next state of a step whose fetch is not valid. -/
theorem fetchPastTheEndIsFatal : Obligations.FetchPastTheEndIsFatal := by
  intro s hh hp
  exact ⟨_, step_eq_of_invalidFetch hh hp, rfl, rfl, rfl, rfl, rfl, rfl, rfl, rfl, beginStep_dt_toNat s,
    beginStep_st_toNat s, rfl, rfl⟩

/-- Settles O13, by the whole next state of a step that fetches an illegal word. -/
theorem decodeErrorLeavesTheRest : Obligations.DecodeErrorLeavesTheRest := by
  intro s hh hp hd
  exact ⟨_, step_eq_of_decodeError hh hp hd, nofun, rfl, rfl, rfl, rfl, rfl, beginStep_dt_toNat s,
    beginStep_st_toNat s, rfl, rfl⟩

/-! The halted state. -/

/-- The whole next state of a step of a halted machine (R187). -/
theorem step_of_halted {s : State} {e : FatalError} (hh : s.halted = some e) :
    step s = .next (reportPhase false s.takeInput) := by
  obtain ⟨-, -, hstep⟩ | ⟨hnone, -⟩ | ⟨hnone, -⟩ | ⟨hnone, -⟩ := step_cases s
  · exact hstep
  all_goals simp [hh] at hnone

theorem SameMachine.refl (s : State) : SameMachine s s := by
  constructor <;> rfl

theorem SameMachine.of_haltedStep {s t : State} (h : SameMachine (reportPhase false s.takeInput) t) : SameMachine s t :=
  ⟨h.v, h.i, h.pc, h.stack, h.dt, h.st, h.lastTick, h.fb, h.keysCur, h.keysPrev, h.halted, h.mem, h.cfg⟩

/-- One step of a run. -/
theorem run_succ {s t : State} (n : Nat) (h : step s = .next t) :
    Host.Core.run core (n + 1) s = Host.Core.run core n t := by
  have hcore : core.step s = .next t := h
  simp only [Host.Core.run, hcore]

/-- Every step returns Fatal, in an unchanged machine. -/
theorem run_of_halted (n : Nat) {s : State} {e : FatalError} (hh : s.halted = some e) :
    ∃ t, Host.Core.run core n s = .next t ∧ SameMachine s t ∧
      (0 < n ∨ s.result = some (.fatal e) → t.result = some (.fatal e)) := by
  induction n generalizing s with
  | zero => exact ⟨s, rfl, SameMachine.refl s, fun h => h.resolve_left (lt_irrefl 0)⟩
  | succ n ih =>
    have hresult : (reportPhase false s.takeInput).result = some (.fatal e) := by simp [stepResult, hh]
    obtain ⟨t, hrun, hsame, hfatal⟩ := ih (s := reportPhase false s.takeInput) hh
    exact ⟨t, (run_succ n (step_of_halted hh)).trans hrun, hsame.of_haltedStep, fun _ => hfatal (.inr hresult)⟩

/-- Settles O16, by induction on the number of steps: the first returns Fatal, and the others return it again. -/
theorem aHaltedMachineStaysAsItIs : Obligations.AHaltedMachineStaysAsItIs := by
  intro n s e hh
  obtain ⟨t, hrun, hsame, hfatal⟩ := run_of_halted n hh
  exact ⟨t, hrun, hsame, fun hn => hfatal (.inl hn)⟩

/-! The report. -/

theorem stepResult_eq_fatal_iff (redraw : Bool) (s : State) (e : FatalError) :
    stepResult redraw s = .fatal e ↔ s.halted = some e := by
  unfold stepResult
  cases s.halted <;> simp

/-- Every step ends in a report. -/
theorem step_reports (s : State) : ∃ redraw t, step s = .next (reportPhase redraw t) := by
  obtain ⟨-, -, h⟩ | ⟨-, -, h⟩ | ⟨-, -, _, -, h⟩ | ⟨-, -, _, _, -, -, h⟩ := step_cases s <;> exact ⟨_, _, h⟩

/-- Settles O17: every step ends in a report, which is Fatal exactly when an error is recorded. -/
theorem everyStepReturnsAResult : Obligations.EveryStepReturnsAResult := by
  intro s
  obtain ⟨redraw, t, hstep⟩ := step_reports s
  exact ⟨_, stepResult redraw t, hstep, rfl, stepResult_eq_fatal_iff redraw t⟩

theorem requestsRedraw_iff (i : Instr) : requestsRedraw i = true ↔ i = .clear ∨ ∃ x y n, i = .draw x y n := by
  cases i <;> simp [requestsRedraw]

/-- Settles O18: the report of a state that is not halted, with the redraw that the instruction requests. -/
theorem reportOfACompletedStep : Obligations.ReportOfACompletedStep := by
  intro s t i hh hp hd hstep hrunning
  obtain ⟨u, -, hstep'⟩ := step_of_instr hh hp hd
  cases hstep'.symm.trans hstep
  refine ⟨requestsRedraw i, u.st != 0#8, ?_, requestsRedraw_iff i, bne_iff_ne⟩
  exact congrArg some (stepResult_of_running (requestsRedraw i) hrunning)

/-! `pc` after a step. -/

theorem execWrites_pc_of_sequential {i : Instr} (s : State) (hseq : i.sequential = true) :
    (execWrites s i).pc = false := by
  cases i <;> simp [Instr.sequential] at hseq <;> rfl

theorem exec_of_isSkip {i : Instr} (s : State) (hskip : i.isSkip = true) :
    ∃ taken, exec i s = .next (skipIf taken s) := by
  cases i <;> simp [Instr.isSkip] at hskip <;> exact ⟨_, rfl⟩

/-- Settles O19, from the advanced `pc`: a sequential instruction keeps it, a skip adds 2 or nothing, WaitKey takes 2
back or nothing. -/
theorem pcAfterAStep : Obligations.PcAfterAStep := by
  intro s i hh hp hd
  obtain ⟨t, hexec, hstep⟩ := step_of_instr hh hp hd
  have hadv : (advancePc (beginStep s.takeInput)).pc.toNat = s.pc.toNat + 2 :=
    advancePc_pc_toNat (s := beginStep s.takeInput) hp
  refine ⟨_, hstep, fun hseq => ?sequential, fun hskip => ?skip, ?waitKey⟩
  case sequential => exact (congrArg BitVec.toNat ((exec_changes hexec).pc (execWrites_pc_of_sequential _ hseq))).trans hadv
  case skip =>
    obtain ⟨taken, hexec'⟩ := exec_of_isSkip _ hskip
    cases hexec'.symm.trans hexec
    cases taken with
    | false => exact .inl hadv
    | true =>
      right
      simp only [reportPhase_pc, skipIf_true, State.setPc_pc]
      bv_omega
  case waitKey =>
    rintro x rfl
    by_cases hk : (advancePc (beginStep s.takeInput)).newKeys = 0#16
    · cases (exec_waitKey_none x hk).symm.trans hexec
      exact .inl (BitVec.add_sub_cancel s.pc 2#16)
    · cases (exec_waitKey_new x hk).symm.trans hexec
      exact .inr hadv

end Sys2Proof.Machine

/-! Return, SysCall, Call, JumpOffset (41_control_flow.md R110, R111, R113, R114). -/

namespace Sys2Proof.Machine

/-- Settles O20: the two shapes of the stack; where the popped entry is above 4094 the next fetch is not valid. -/
theorem returnPopsOrUnderflows : Obligations.ReturnPopsOrUnderflows := by
  refine ⟨decode_ret, fun s => ⟨fun a rest hs => ?pops, fun hs => ?underflows⟩⟩
  case pops =>
    exact ⟨_, exec_ret_cons hs, rfl, rfl, Frame.of_pc_stack s a rest,
      fun hh hp => ⟨_, step_eq_of_invalidFetch (s := { s with pc := a, stack := rest }) hh hp, rfl⟩⟩
  case underflows => exact ⟨_, exec_ret_nil hs, rfl, raise_frame s _⟩

theorem exec_sysCall (nnn : BitVec 12) (s : State) : exec (.sysCall nnn) s = .next s := rfl

/-- Settles O21: the word decodes, and the execute phase answers the state it was given. -/
theorem sysCallDoesNothing : Obligations.SysCallDoesNothing := by
  intro nnn h0 hE
  exact ⟨decode_encNNN_zero h0 hE, fun s => ⟨s, exec_sysCall nnn s, Frame.rfl' {} s⟩⟩

/-- Settles O23: the stack is full or it is not, which STACK_DEPTH decides. -/
theorem callPushesAndJumpsOrOverflows : Obligations.CallPushesAndJumpsOrOverflows := by
  intro nnn
  refine ⟨decode_call nnn, fun s => ⟨fun hroom => ?pushes, fun depth hd hle => ?overflows⟩⟩
  case pushes =>
    have hfull : ¬s.stackFull = true := fun hfull => by
      obtain ⟨depth, hd, hle⟩ := s.stackFull_iff.mp hfull
      exact absurd (hroom depth hd) (not_lt.mpr hle)
    exact ⟨_, exec_call_push nnn (Bool.eq_false_of_not_eq_true hfull), rfl, zextAddr_toNat nnn,
      Frame.of_pc_stack s (zextAddr nnn) (s.pc :: s.stack)⟩
  case overflows =>
    exact ⟨_, exec_call_full nnn (s.stackFull_iff.mpr ⟨depth, hd, hle⟩), rfl, raise_frame s _⟩

theorem exec_jumpOffset (nnn : BitVec 12) (s : State) :
    exec (.jumpOffset nnn) s = .next (s.setPc (zextByte (s.getV 0) + zextAddr nnn)) := rfl

/-- A byte and a 12-bit address have a sum of 16 bits. -/
theorem zextByte_add_zextAddr_toNat (b : Byte) (nnn : BitVec 12) :
    (zextByte b + zextAddr nnn).toNat = b.toNat + nnn.toNat := by
  rw [BitVec.toNat_add, zextByte_toNat, zextAddr_toNat]
  omega

/-- Settles O24: one write to `pc` of a sum that 16 bits hold. -/
theorem jumpOffsetAddsVZero : Obligations.JumpOffsetAddsVZero := by
  intro nnn
  exact ⟨decode_jumpOffset nnn, fun s =>
    ⟨_, exec_jumpOffset nnn s, zextByte_add_zextAddr_toNat (s.getV 0) nnn, s.setPc_frame _⟩⟩

end Sys2Proof.Machine

/-! The ALU family and Random (43_load_alu.md R134 to R142): one write to `V[x]`, after one of the flag to VF where the
instruction has a flag. -/

namespace Sys2Proof.Machine

theorem exec_or (x y : RegIx) (s : State) : exec (.or x y) s = .next (s.setV x (s.getV x ||| s.getV y)) := rfl
theorem exec_and (x y : RegIx) (s : State) : exec (.and x y) s = .next (s.setV x (s.getV x &&& s.getV y)) := rfl
theorem exec_xor (x y : RegIx) (s : State) : exec (.xor x y) s = .next (s.setV x (s.getV x ^^^ s.getV y)) := rfl
theorem exec_random (x : RegIx) (nn : Byte) (s : State) :
    exec (.random x nn) s = .next (s.setV x (s.input.rnd &&& nn)) := rfl

/-- An instruction that is one write to `V[x]`, seen bit by bit. -/
theorem exec_setsBits {i : Instr} {s : State} {x : RegIx} {b : Byte} {bit : Nat → Bool}
    (hexec : exec i s = .next (s.setV x b)) (hbit : ∀ k, b.getLsbD k = bit k) :
    ∃ t, exec i s = .next t ∧ Frame { regs := [x] } s t ∧ ∀ k, (t.getV x).getLsbD k = bit k := by
  obtain ⟨t, hexec, hx, hframe⟩ := exec_setsRegister hexec
  exact ⟨t, hexec, hframe, fun k => hx ▸ hbit k⟩

/-- Settles O29: the three words decode, and each instruction writes its bitwise operation on the two registers. -/
theorem logicalOperationsWriteNoFlag : Obligations.LogicalOperationsWriteNoFlag := by
  intro x y
  refine ⟨decode_or x y, decode_and x y, decode_xor x y, fun s => ⟨?or, ?and, ?xor⟩⟩
  case or => exact exec_setsBits (exec_or x y s) (fun _ => BitVec.getLsbD_or)
  case and => exact exec_setsBits (exec_and x y s) (fun _ => BitVec.getLsbD_and)
  case xor => exact exec_setsBits (exec_xor x y s) (fun _ => BitVec.getLsbD_xor)

/-- Settles O33: the word decodes, and the instruction writes the conjunction of the step's byte and the immediate. -/
theorem randomMasksTheInputByte : Obligations.RandomMasksTheInputByte := by
  intro x nn
  refine ⟨decode_random x nn, fun s b hb => ?_⟩
  subst hb
  exact exec_setsBits (exec_random x nn s) (fun _ => BitVec.getLsbD_and)

theorem exec_add (x y : RegIx) (s : State) : exec (.add x y) s =
    .next (flagThenResult x (carryFlag (s.getV x) (s.getV y)) (s.getV x + s.getV y) s) := rfl
theorem exec_sub (x y : RegIx) (s : State) : exec (.sub x y) s =
    .next (flagThenResult x (noBorrowFlag (s.getV x) (s.getV y)) (s.getV x - s.getV y) s) := rfl
theorem exec_subn (x y : RegIx) (s : State) : exec (.subn x y) s =
    .next (flagThenResult x (noBorrowFlag (s.getV y) (s.getV x)) (s.getV y - s.getV x) s) := rfl
theorem exec_shr (x y : RegIx) (s : State) : exec (.shr x y) s =
    .next (flagThenResult x (lowBitFlag (s.getV x)) (s.getV x >>> 1) s) := rfl
theorem exec_shl (x y : RegIx) (s : State) : exec (.shl x y) s =
    .next (flagThenResult x (highBitFlag (s.getV x)) (s.getV x <<< 1) s) := rfl

/-- An instruction that is a flag and a result (R132), with both as numbers: the result stays, and the flag unless VF is
the destination. -/
theorem exec_setsFlagAndResult {i : Instr} {s : State} {x : RegIx} {flag : Bool} {b : Byte} {result flagValue : Nat}
    (hexec : exec i s = .next (flagThenResult x flag b s)) (hresult : b.toNat = result)
    (hflag : (flagByte flag).toNat = flagValue) :
    ∃ t, exec i s = .next t ∧ (t.getV x).toNat = result ∧ (x ≠ 15 → (t.getV 15).toNat = flagValue) ∧
      Frame { regs := [x, 15] } s t := by
  refine ⟨_, hexec, ?_, fun hx => ?_, flagThenResult_frame s x flag b⟩
  · rw [flagThenResult_getV, if_pos rfl, hresult]
  · rw [flagThenResult_getV, if_neg hx.symm, if_pos rfl, hflag]

theorem flagByte_decide_toNat (p : Prop) [Decidable p] : (flagByte (decide p)).toNat = if p then 1 else 0 := by
  by_cases hp : p <;> simp [flagByte, hp]

theorem carryFlag_toNat (a b : Byte) : (flagByte (carryFlag a b)).toNat = (a.toNat + b.toNat) / 256 := by
  rw [carryFlag, flagByte_decide_toNat]
  split <;> omega

theorem sub_toNat (a b : Byte) : (a - b).toNat = (a.toNat + 256 - b.toNat) % 256 := by
  rw [BitVec.toNat_sub]
  omega

theorem shiftRight_one_toNat (a : Byte) : (a >>> 1).toNat = a.toNat / 2 := by
  rw [BitVec.toNat_ushiftRight, Nat.shiftRight_eq_div_pow, Nat.pow_one]

theorem shiftLeft_one_toNat (a : Byte) : (a <<< 1).toNat = (2 * a.toNat) % 256 := by
  rw [BitVec.toNat_shiftLeft, Nat.shiftLeft_eq, Nat.pow_one, Nat.mul_comm]

theorem lowBitFlag_toNat (a : Byte) : (flagByte (lowBitFlag a)).toNat = a.toNat % 2 := by
  have hbit : lowBitFlag a = decide (a.toNat / 2 ^ 0 % 2 = 1) := Nat.testBit_eq_decide_div_mod_eq
  rw [hbit, flagByte_decide_toNat]
  split <;> omega

theorem highBitFlag_toNat (a : Byte) : (flagByte (highBitFlag a)).toNat = a.toNat / 128 := by
  have hbit : highBitFlag a = decide (a.toNat / 2 ^ 7 % 2 = 1) := Nat.testBit_eq_decide_div_mod_eq
  rw [hbit, flagByte_decide_toNat]
  split <;> omega

/-- Settles O30: the word decodes; the sum of bytes wraps at 256 and the flag is its carry. -/
theorem addWritesSumAndCarry : Obligations.AddWritesSumAndCarry := by
  intro x y
  exact ⟨decode_add x y, fun s =>
    exec_setsFlagAndResult (exec_add x y s) (BitVec.toNat_add _ _) (carryFlag_toNat _ _)⟩

/-- Settles O31: the two words decode; Subn is Sub with the operands exchanged. -/
theorem subtractionsWriteDifferenceAndNotBorrow : Obligations.SubtractionsWriteDifferenceAndNotBorrow := by
  intro x y
  refine ⟨decode_sub x y, decode_subn x y, fun s => ⟨?sub, ?subn⟩⟩
  case sub => exact exec_setsFlagAndResult (exec_sub x y s) (sub_toNat _ _) (flagByte_decide_toNat _)
  case subn => exact exec_setsFlagAndResult (exec_subn x y s) (sub_toNat _ _) (flagByte_decide_toNat _)

/-- Settles O32: the two words decode; a shift by one place halves or doubles, and the flag is the bit that leaves. -/
theorem shiftsWriteTheBitShiftedOut : Obligations.ShiftsWriteTheBitShiftedOut := by
  intro x y
  refine ⟨decode_shr x y, decode_shl x y, fun s => ⟨?shr, ?shl⟩⟩
  case shr => exact exec_setsFlagAndResult (exec_shr x y s) (shiftRight_one_toNat _) (lowBitFlag_toNat _)
  case shl => exact exec_setsFlagAndResult (exec_shl x y s) (shiftLeft_one_toNat _) (highBitFlag_toNat _)

end Sys2Proof.Machine

/-! The index register and memory (44_index_memory.md R151 to R155; 20_memory.md R57, R62). -/

namespace Sys2Proof.Machine

theorem exec_addToIndex (x : RegIx) (s : State) :
    exec (.addToIndex x) s = .next (s.setI (s.i + zextByte (s.getV x))) := rfl

theorem exec_loadFontAddr (x : RegIx) (s : State) : exec (.loadFontAddr x) s =
    .next (s.setI (BitVec.ofNat 16 (Config.fontBase + ((s.getV x).toNat % s.cfg.fontDigitModulus) * 5))) := rfl

/-- Settles O35: each instruction is one write to `I`; the address of a glyph is far below 65536. -/
theorem indexArithmetic : Obligations.IndexArithmetic := by
  intro x
  refine ⟨decode_addToIndex x, decode_loadFontAddr x, fun s => ⟨?add, ?font⟩⟩
  case add =>
    refine ⟨_, exec_addToIndex x s, ?_, s.setI_frame _⟩
    rw [State.setI_i, BitVec.toNat_add, zextByte_toNat]
  case font =>
    refine ⟨_, exec_loadFontAddr x s, ?_, s.setI_frame _⟩
    have hdigit : (s.getV x).toNat % s.cfg.fontDigitModulus ≤ (s.getV x).toNat := Nat.mod_le _ _
    rw [State.setI_i, BitVec.toNat_ofNat, Nat.zero_add]
    omega

/-- A byte stored at consecutive addresses that exist reads back. -/
theorem State.readByte_writeBytes_getElem (s : State) (a : Nat) (vs : List Byte) (h : a + vs.length ≤ Config.memSize)
    (k : Nat) (hk : k < vs.length) : (s.writeBytes a vs).readByte (a + k) = vs[k] := by
  rw [State.readByte_writeBytes vs a s h, dif_pos ⟨Nat.le_add_right a k, Nat.add_lt_add_left hk a⟩]
  simp only [Nat.add_sub_cancel_left]

/-- An access that reaches above 0xFFF is a fatal error and changes nothing else (R57, decision D8). -/
theorem exec_accessFails {i : Instr} {s : State} {k : Nat} {effect : State → State}
    (hexec : exec i s = withinMemory s.indexAddr (k + 1) effect s) (hout : 0xFFF < s.indexAddr + k) :
    ∃ t, exec i s = .next t ∧ t.halted = some (.addressOutOfRange (max s.i.toNat 0x1000)) ∧
      Frame { halted := true } s t :=
  ⟨_, hexec.trans (withinMemory_out effect s (Nat.succ_ne_zero k) (by simp only [Config.memSize]; omega)), rfl,
    raise_frame s _⟩

theorem withinMemory_succ {base k : Nat} (effect : State → State) (s : State) (h : base + k ≤ 0xFFF) :
    withinMemory base (k + 1) effect s = .next (effect s) :=
  withinMemory_in effect s (.inr (by simp only [Config.memSize]; omega))

/-- Settles O36: three bytes are stored, each digit fits in one, or the access fails. -/
theorem storeBCDStoresThreeDigits : Obligations.StoreBCDStoresThreeDigits := by
  intro x
  refine ⟨decode_storeBCD x, fun s => ⟨fun hin => ?stores, exec_accessFails (exec_storeBCD x s)⟩⟩
  have hlen : s.indexAddr + (bcdDigits (s.getV x)).length ≤ Config.memSize := Nat.succ_le_succ hin
  have hdigit := State.readByte_writeBytes_getElem s s.indexAddr (bcdDigits (s.getV x)) hlen
  have hb := (s.getV x).isLt
  refine ⟨_, (exec_storeBCD x s).trans (withinMemory_succ _ s hin), ?hundreds, ?tens, ?ones,
    State.writeBytes_frame s s.indexAddr _ hlen⟩
  case hundreds => exact (congrArg BitVec.toNat (hdigit 0 (by simp [bcdDigits]))).trans (Nat.mod_eq_of_lt (by omega))
  case tens => exact (congrArg BitVec.toNat (hdigit 1 (by simp [bcdDigits]))).trans (Nat.mod_eq_of_lt (by omega))
  case ones => exact (congrArg BitVec.toNat (hdigit 2 (by simp [bcdDigits]))).trans (Nat.mod_eq_of_lt (by omega))

/-- Settles O37: the registers of the range are stored in order, or the access fails. -/
theorem regDumpStoresTheRange : Obligations.RegDumpStoresTheRange := by
  intro x
  refine ⟨decode_regDump x, fun s => ⟨fun hin => ?stores, exec_accessFails (exec_regDump x s)⟩⟩
  have hrange : (s.regRange x).length = x.val + 1 := s.regRange_length x
  have hlen : s.indexAddr + (s.regRange x).length ≤ Config.memSize := hrange ▸ Nat.succ_le_succ hin
  refine ⟨_, (exec_regDump x s).trans (withinMemory_succ _ s hin), fun k hk => ?_,
    hrange ▸ State.writeBytes_frame s s.indexAddr _ hlen⟩
  have hk' : k.val < (s.regRange x).length := hrange ▸ Nat.lt_succ_of_le hk
  rw [State.readByte_writeBytes_getElem s s.indexAddr (s.regRange x) hlen k.val hk', State.regRange_getElem, regAt_val]

/-- Settles O38: the registers of the range are loaded in order and those above it kept, or the access fails. -/
theorem regLoadLoadsTheRange : Obligations.RegLoadLoadsTheRange := by
  intro x
  refine ⟨decode_regLoad x, fun s => ⟨fun hin => ?loads, exec_accessFails (exec_regLoad x s)⟩⟩
  have hgetV := loadRegs_getV s.indexAddr (x.val + 1) x.isLt s
  refine ⟨_, (exec_regLoad x s).trans (withinMemory_succ _ s hin), fun k hk => ?_, fun k hk => ?_,
    loadRegs_frame s s.indexAddr (x.val + 1)⟩
  · exact (hgetV k).trans (if_pos (Nat.lt_succ_of_le hk))
  · exact (hgetV k).trans (if_neg (not_lt.mpr hk))

/-- Settles O39: RegDump stores V0 and V1 at `I` and `I + 1`, where the next fetch reads. -/
theorem aStoreIsSeenByTheNextFetch : Obligations.AStoreIsSeenByTheNextFetch := by
  intro x s hx hin hpc
  obtain ⟨t, hexec, hbytes, hframe⟩ := ((regDumpStoresTheRange x).2 s).1 hin
  refine ⟨t, hexec, ?_⟩
  have hat : t.pc.toNat = s.indexAddr := by rw [hframe.pc rfl, ← hpc, State.indexAddr]
  have h0 : t.readByte s.indexAddr = s.getV 0 := hbytes 0 (Nat.zero_le _)
  have h1 : t.readByte (s.indexAddr + 1) = s.getV 1 := hbytes 1 hx
  rw [fetchWord, hat, h0, h1, wordOfBytes]

/-! The canonical form. -/

/-- In canonical form the cells are the addresses that do not read as `base`, each with what it reads as. -/
theorem Memory.mem_iff_read {base : Nat → Byte} {m : Memory} (h : Memory.wf base m) (c : Host.Cell) :
    c ∈ m ↔ Memory.read base m c.1 = c.2 ∧ c.2 ≠ base c.1 := by
  obtain ⟨hsorted, hcells⟩ := h
  obtain ⟨a, v⟩ := c
  induction m with
  | nil => simp [Memory.read, eq_comm]
  | cons d rest ih =>
    obtain ⟨b, w⟩ := d
    obtain ⟨hlt, hsorted⟩ := List.pairwise_cons.mp hsorted
    obtain ⟨⟨-, hw⟩, hcells⟩ := List.forall_mem_cons.mp hcells
    have ih := ih hsorted hcells
    by_cases hab : a = b
    · subst hab
      have hnot : (a, v) ∉ rest := fun hmem => absurd (hlt _ hmem) (lt_irrefl a)
      simp only [List.mem_cons, Prod.mk.injEq, true_and, hnot, or_false, Memory.read, if_true]
      exact ⟨fun e => ⟨e.symm, e ▸ hw⟩, fun e => e.1.symm⟩
    · simpa [Memory.read, hab] using ih

/-- Settles O40: in canonical form the cells are determined by the reads, and their order by their addresses. -/
theorem canonicalMemoriesThatReadAlikeAreEqual : Obligations.CanonicalMemoriesThatReadAlikeAreEqual := by
  intro base m n hm hn hread
  have hmem : ∀ c, c ∈ m ↔ c ∈ n := fun c => by
    rw [Memory.mem_iff_read hm, Memory.mem_iff_read hn, hread]
  have hnodup : ∀ {l : Memory}, Memory.wf base l → l.Nodup := fun hl =>
    hl.1.imp fun hlt heq => absurd (heq ▸ hlt) (lt_irrefl _)
  have hperm : List.Perm m n := (List.perm_ext_iff_of_nodup (hnodup hm) (hnodup hn)).mpr hmem
  exact hperm.eq_of_pairwise (fun _ _ _ _ hab hba => absurd hab (lt_asymm hba)) hm.1 hn.1

end Sys2Proof.Machine

/-! Draw (45_display.md R161, R162): the blit in closed form (`drawSprite_pixel`, `drawSprite_vf`), over the pixels of the
grid. -/

namespace Sys2Proof.Machine

theorem drawSprite_getElem (s : State) (x y : RegIx) (n : Fin 16) (py : Fin 32) (px : Fin 64) :
    (drawSprite x y n.val s).fb[py][px] = true ↔
      ¬(s.fb[py][px] = true ↔ SpriteOn s x y n.val px.val py.val) := by
  have hpixel := drawSprite_pixel s x y n.val (by omega) px.val py.val
  rwa [fbPixel_eq, fbPixel_eq, Nat.mod_eq_of_lt px.isLt, Nat.mod_eq_of_lt py.isLt] at hpixel

/-- VF tells whether a pixel under the sprite was on. -/
theorem drawSprite_vf_cases (s : State) (x y : RegIx) (n : Fin 16) :
    ((drawSprite x y n.val s).getV 15 = 0x01#8 ∧
      ∃ (py : Fin 32) (px : Fin 64), SpriteOn s x y n.val px.val py.val ∧ s.fb[py][px] = true) ∨
    ((drawSprite x y n.val s).getV 15 = 0x00#8 ∧
      ∀ (py : Fin 32) (px : Fin 64), SpriteOn s x y n.val px.val py.val → s.fb[py][px] = false) := by
  obtain ⟨hvf, px, py, hon, hp⟩ | ⟨hvf, hoff⟩ := drawSprite_vf s x y n.val (by omega)
  · exact .inl ⟨hvf, ⟨py % 32, Nat.mod_lt _ (by decide)⟩, ⟨px % 64, Nat.mod_lt _ (by decide)⟩, hon, hp⟩
  · refine .inr ⟨hvf, fun py px hon => ?_⟩
    rw [← fbPixel_eq]
    exact hoff px.val py.val (by rwa [Nat.mod_eq_of_lt px.isLt, Nat.mod_eq_of_lt py.isLt])

theorem drawSprite_vf_eq_one_iff (s : State) (x y : RegIx) (n : Fin 16) :
    (drawSprite x y n.val s).getV 15 = 0x01#8 ↔
      ∃ (py : Fin 32) (px : Fin 64), SpriteOn s x y n.val px.val py.val ∧ s.fb[py][px] = true := by
  obtain ⟨hvf, hhit⟩ | ⟨hvf, hoff⟩ := drawSprite_vf_cases s x y n
  · simp only [hvf, hhit]
  · have hnone : ¬∃ (py : Fin 32) (px : Fin 64), SpriteOn s x y n.val px.val py.val ∧ s.fb[py][px] = true := by
      rintro ⟨py, px, hon, hp⟩
      exact Bool.false_ne_true ((hoff py px hon).symm.trans hp)
    rw [hvf]
    exact iff_of_false (by decide) hnone

theorem exec_draw_completes (x y : RegIx) (n : Fin 16) {s : State}
    (hin : n.val = 0 ∨ s.indexAddr + n.val - 1 ≤ 0xFFF) :
    exec (.draw x y n) s = .next (drawSprite x y n.val s) :=
  withinMemory_in _ s (by simp only [Config.memSize]; omega)

/-- Settles O42: each pixel is inverted exactly under the sprite, and VF tells whether one of those was on. -/
theorem drawInvertsThePixelsUnderTheSprite : Obligations.DrawInvertsThePixelsUnderTheSprite := by
  intro x y n
  refine ⟨decode_draw x y n, fun s hin => ⟨_, exec_draw_completes x y n hin, fun py px hon => ?under,
    fun py px hoff => ?beside, (drawSprite_vf_eq_one_iff s x y n).mpr, fun hno => ?noHit, drawSprite_frame s x y n.val⟩⟩
  case under =>
    rw [Bool.eq_iff_iff, drawSprite_getElem, Bool.not_eq_true', ← Bool.not_eq_true]
    tauto
  case beside =>
    rw [Bool.eq_iff_iff, drawSprite_getElem]
    tauto
  case noHit =>
    obtain ⟨-, py, px, hon, hp⟩ | ⟨hvf, -⟩ := drawSprite_vf_cases s x y n
    · exact absurd ((hno py px hon).symm.trans hp) Bool.false_ne_true
    · exact hvf

/-- Settles O43, by the range check of a sprite of `n - 1` bytes and one more. -/
theorem drawBeyondMemoryIsFatal : Obligations.DrawBeyondMemoryIsFatal := by
  intro x y n s hn hout
  obtain ⟨k, hk⟩ := Nat.exists_eq_add_of_le' hn
  have hexec : exec (.draw x y n) s = withinMemory s.indexAddr (k + 1) (drawSprite x y n.val) s :=
    hk ▸ exec_draw x y n s
  exact exec_accessFails hexec (by omega)

/-- The sprite lies over the same pixels wherever its coordinates and its bytes are the same. -/
theorem spriteOn_congr {s s' : State} {x y x' y' : RegIx} {n : Nat} (hx : s'.getV x' = s.getV x)
    (hy : s'.getV y' = s.getV y)
    (hbytes : ∀ r, r < n → s'.readByte (s'.indexAddr + r) = s.readByte (s.indexAddr + r)) (px py : Nat) :
    SpriteOn s' x' y' n px py ↔ SpriteOn s x y n px py := by
  unfold SpriteOn
  rw [hx, hy]
  exact exists_congr fun r => and_congr_right fun hr => by rw [hbytes r hr]

/-- The grid is its pixels. -/
theorem framebuffer_ext {a b : Framebuffer} (h : ∀ (py : Fin 32) (px : Fin 64), a[py][px] = b[py][px]) : a = b :=
  Vector.ext fun py hpy => Vector.ext fun px hpx => h ⟨py, hpy⟩ ⟨px, hpx⟩

/-- Settles O44: an inversion under the same pixels undoes itself, and a pixel that the second Draw finds on under the
sprite is one that the first found off. -/
theorem drawingTwiceRestoresTheFramebuffer : Obligations.DrawingTwiceRestoresTheFramebuffer := by
  intro x y n s hin
  refine ⟨_, exec_draw_completes x y n hin, fun s' x' y' hfb hx hy hin' hbytes => ?_⟩
  have hsame := spriteOn_congr hx hy hbytes
  refine ⟨_, exec_draw_completes x' y' n hin', framebuffer_ext fun py px => ?restored, ?collides⟩
  case restored =>
    rw [Bool.eq_iff_iff, drawSprite_getElem, hfb, drawSprite_getElem, hsame]
    tauto
  case collides =>
    rw [drawSprite_vf_eq_one_iff]
    refine exists_congr fun py => exists_congr fun px => ?_
    rw [hfb, drawSprite_getElem, hsame, ← Bool.not_eq_true]
    tauto

end Sys2Proof.Machine

/-! WaitKey and the timer instructions (46_keypad_timers.md R173 to R176). -/

namespace Sys2Proof.Machine

/-- R173: the new keys are those held now and not one step ago. -/
theorem State.mem_newKeys (s : State) (k : Nat) :
    k ∈ keyCodes s.newKeys ↔ k < 16 ∧ s.keysCur.getLsbD k = true ∧ s.keysPrev.getLsbD k = false := by
  rw [mem_keyCodes]
  refine and_congr_right fun hk => ?_
  simp [State.newKeys, hk]

theorem newKeys_ne_zero {s : State} {k : Nat} (hk : k ∈ keyCodes s.newKeys) : s.newKeys ≠ 0#16 := by
  intro hzero
  rw [hzero, mem_keyCodes] at hk
  simp at hk

theorem newKeys_eq_zero {s : State} (hno : ∀ k, k ∉ keyCodes s.newKeys) : s.newKeys = 0#16 := by
  by_contra hne
  exact hno _ (pickKey_mem hne 0)

/-- A new key's code is what WaitKey stores of it. -/
theorem keyCode_toNat {keys : Word16} {k : Nat} (hk : k ∈ keyCodes keys) : (BitVec.ofNat 8 k).toNat = k := by
  have hlt := (mem_keyCodes.mp hk).1
  rw [BitVec.toNat_ofNat]
  omega

/-- Settles O46: there is a new key or there is none; whatever the draw, the key picked is a new one. -/
theorem waitKeyTakesANewKeyOrRepeats : Obligations.WaitKeyTakesANewKeyOrRepeats := by
  intro x
  refine ⟨decode_waitKey x, fun s => ⟨?takes, fun hno => ?repeats⟩⟩
  case takes =>
    rintro ⟨k, hk, hcur, hprev⟩
    have hne := newKeys_ne_zero ((s.mem_newKeys k).mpr ⟨hk, hcur, hprev⟩)
    have hpick := pickKey_mem hne s.input.pick
    obtain ⟨hlt, hcur', hprev'⟩ := (s.mem_newKeys _).mp hpick
    refine ⟨_, _, exec_waitKey_new x hne, hlt, hcur', hprev', ?_, s.setV_frame x _⟩
    rw [State.getV_setV_self, keyCode_toNat hpick]
  case repeats =>
    have hzero : s.newKeys = 0#16 := newKeys_eq_zero fun k hk => by
      obtain ⟨hlt, hcur, hprev⟩ := (s.mem_newKeys k).mp hk
      exact Bool.false_ne_true (hprev.symm.trans (hno k hlt hcur))
    exact ⟨_, exec_waitKey_none x hzero, rfl, s.setPc_frame _⟩

/-- Settles O47: every member of the set is picked by some draw, on which the set does not depend. -/
theorem waitKeyMayTakeAnyNewKey : Obligations.WaitKeyMayTakeAnyNewKey := by
  intro x s k hk hcur hprev
  have hmem := (s.mem_newKeys k).mpr ⟨hk, hcur, hprev⟩
  obtain ⟨pick, hpick⟩ := pickKey_surj hmem
  have hne : State.newKeys { s with input := { s.input with pick := pick } } ≠ 0#16 := newKeys_ne_zero (s := s) hmem
  refine ⟨pick, _, exec_waitKey_new x hne, ?_⟩
  rw [State.getV_setV_self]
  exact (congrArg (fun k => (BitVec.ofNat 8 k).toNat) hpick).trans (keyCode_toNat hmem)

theorem exec_getDelay (x : RegIx) (s : State) : exec (.getDelay x) s = .next (s.setV x s.dt) := rfl
theorem exec_setDelay (x : RegIx) (s : State) : exec (.setDelay x) s = .next { s with dt := s.getV x } := rfl
theorem exec_setSound (x : RegIx) (s : State) : exec (.setSound x) s = .next { s with st := s.getV x } := rfl

/-- Settles O48: the three words decode, and each instruction is one write. -/
theorem timerInstructions : Obligations.TimerInstructions := by
  intro x
  refine ⟨decode_getDelay x, decode_setDelay x, decode_setSound x, fun s => ⟨?getDelay, ?setDelay, ?setSound⟩⟩
  case getDelay => exact exec_setsRegister (exec_getDelay x s)
  case setDelay => exact ⟨_, exec_setDelay x s, rfl, Frame.of_dt s (s.getV x)⟩
  case setSound => exact ⟨_, exec_setSound x s, rfl, Frame.of_st s (s.getV x)⟩

end Sys2Proof.Machine

/-! Reset and Load (10_state.md R38; 70_reset_and_hazards.md R210 to R212). -/

namespace Sys2Proof.Machine

theorem Memory.unlisted_font (font : Vector Byte Config.fontSize) (k : Fin 80) :
    Memory.unlisted font k.val = font[k] := dif_pos k.isLt

theorem Memory.unlisted_zero (font : Vector Byte Config.fontSize) {a : Nat} (ha : 80 ≤ a) :
    Memory.unlisted font a = 0x00#8 := dif_neg (not_lt.mpr ha)

theorem resetAt_getV (t0 : Nat) (cfg : Config.Params) (r : RegIx) : (State.resetAt t0 cfg).getV r = 0x00#8 := by
  simp only [State.getV, State.resetAt, Fin.getElem_fin, Vector.getElem_replicate]

/-- Settles O54: the table of R38 field by field; memory lists nothing, so each byte reads as it does after reset. -/
theorem resetLeavesTheTableOfValues : Obligations.ResetLeavesTheTableOfValues := by
  intro t0 s
  exact ⟨rfl, Memory.unlisted_font s.cfg.font, fun _ => Memory.unlisted_zero s.cfg.font, resetAt_getV t0 s.cfg, rfl, rfl,
    rfl, rfl, blankFramebuffer_pixel, rfl, rfl, rfl, rfl, rfl⟩

theorem hostLoad_next {bytes : List Byte} {s : State} (hl : s.launch = .constructed) (hlen : bytes.length ≤ 3584) :
    s.hostLoad bytes = .next { s.writeBytes Config.programBase bytes with launch := .loaded } :=
  if_pos ⟨hl, hlen⟩

theorem hostLoad_refused {bytes : List Byte} {s : State} (h : s.launch ≠ .constructed ∨ 3584 < bytes.length) :
    s.hostLoad bytes = .refused .loadOutsideDomain :=
  if_neg fun ⟨hl, hlen⟩ => h.elim (· hl) (not_lt.mpr hlen)

/-- A program that Load accepts lies within memory. -/
theorem program_fits {bytes : List Byte} (hlen : bytes.length ≤ 3584) :
    Config.programBase + bytes.length ≤ Config.memSize := by
  simp only [Config.programBase, Config.memSize]
  omega

/-- Settles O55: within its domain Load is `writeBytes` at 0x200 beside the launch record, and outside it is refused. -/
theorem loadCopiesTheProgram : Obligations.LoadCopiesTheProgram := by
  intro bytes s
  refine ⟨fun hl hlen => ⟨_, hostLoad_next hl hlen, ?copied, ?frame⟩, hostLoad_refused⟩
  case copied => exact State.readByte_writeBytes_getElem s Config.programBase bytes (program_fits hlen)
  case frame =>
    exact { State.writeBytes_frame s Config.programBase bytes (program_fits hlen) with launch := nofun }

/-- Settles O56: the loaded machine is running at 0x200 and its two bytes there are the program's first, so the step is
that of the instruction they decode to. -/
theorem theFirstStepRunsTheLoadedInstruction : Obligations.TheFirstStepRunsTheLoadedInstruction := by
  intro t0 cfg hi lo rest i hlen hd
  have hlen' : (hi :: lo :: rest).length ≤ 3584 := Nat.succ_le_succ (Nat.succ_le_succ hlen)
  obtain ⟨t, hload, hbytes, hframe⟩ := (loadCopiesTheProgram (hi :: lo :: rest) (State.resetAt t0 cfg)).1 rfl hlen'
  have hpc : t.pc = 0x200#16 := hframe.pc rfl
  have hstack : t.stack = [] := hframe.stack rfl
  have h0 : t.readByte 0x200 = hi := hbytes 0 (Nat.succ_pos _)
  have h1 : t.readByte 0x201 = lo := hbytes 1 (Nat.succ_lt_succ (Nat.succ_pos _))
  refine ⟨t, hload, stepRunsTheDecodedInstruction t i (hframe.halted rfl) ?_ ?_, ?_, hstack, rfl⟩
  · rw [hpc]; decide
  · rw [hpc]
    exact h0.symm ▸ h1.symm ▸ hd
  · exact congrArg (· + 2#16) hpc

/-! A run of the machine with nothing loaded. -/

/-- After reset and `k` steps with nothing loaded: running, memory as reset left it, and `pc` at the `k`-th word. -/
structure Unloaded (k : Nat) (s : State) : Prop where
  running : s.halted = none
  mem : s.mem = []
  pc : s.pc.toNat = 0x200 + 2 * k

/-- Every word from 0x200 on is 0x0000, a SysCall. -/
theorem Unloaded.nextWord {k : Nat} {s : State} (h : Unloaded k s) : s.nextWord = 0x0000#16 := by
  have hzero : ∀ a, 80 ≤ a → s.readByte a = 0x00#8 := fun a ha => by
    rw [State.readByte, h.mem]
    exact Memory.unlisted_zero s.cfg.font ha
  have hpc := h.pc
  rw [State.nextWord, hzero _ (by omega), hzero _ (by omega)]
  rfl

theorem Unloaded.step {k : Nat} {s : State} (h : Unloaded k s) (hk : k < 1792) :
    ∃ t, step s = .next t ∧ Unloaded (k + 1) t := by
  have hpc := h.pc
  have hp : s.pc.toNat ≤ Config.lastFetch := by simp only [Config.lastFetch]; omega
  have hd : decode s.nextWord = .instr (.sysCall 0x000#12) := by rw [h.nextWord]; decide
  obtain ⟨t, hexec, hstep⟩ := step_of_instr h.running hp hd
  cases (exec_sysCall _ _).symm.trans hexec
  have hadv := advancePc_pc_toNat (s := beginStep s.takeInput) hp
  exact ⟨_, hstep, h.running, h.mem, hadv.trans (by rw [beginStep_pc, State.takeInput_pc, hpc]; omega)⟩

/-- `n` steps and one more. -/
theorem run_add_one {n : Nat} {s t : State} (h : Host.Core.run core n s = .next t) :
    Host.Core.run core (n + 1) s = step t := by
  induction n generalizing s with
  | zero =>
    cases h
    obtain ⟨_, _, hstep⟩ := step_reports t
    exact (run_succ 0 hstep).trans hstep.symm
  | succ n ih =>
    obtain ⟨_, _, hstep⟩ := step_reports s
    rw [run_succ (n + 1) hstep]
    exact ih ((run_succ n hstep).symm.trans h)

theorem Unloaded.run {s : State} (h : Unloaded 0 s) (n : Nat) (hn : n ≤ 1792) :
    ∃ t, Host.Core.run core n s = .next t ∧ Unloaded n t := by
  induction n with
  | zero => exact ⟨s, rfl, h⟩
  | succ n ih =>
    obtain ⟨t, hrun, ht⟩ := ih (by omega)
    obtain ⟨u, hstep, hu⟩ := ht.step (by omega)
    exact ⟨u, (run_add_one hrun).trans hstep, hu⟩

/-- Settles O57: by induction each of the 1792 steps runs the SysCall at its `pc`; the next fetch is not valid. -/
theorem anUnloadedMachineRunsOffTheEnd : Obligations.AnUnloadedMachineRunsOffTheEnd := by
  intro t0 m calls
  obtain ⟨t, hrun, ht⟩ := Unloaded.run (s := { m.hostReset t0 with inputs := calls }) ⟨rfl, rfl, rfl⟩ 1792 (le_refl _)
  have hpc : t.pc = 0x1000#16 := BitVec.eq_of_toNat_eq ht.pc
  have hp : Config.lastFetch < t.pc.toNat := by rw [hpc]; decide
  refine ⟨⟨t, hrun, ht.running, hpc⟩, _, (run_add_one hrun).trans (step_eq_of_invalidFetch ht.running hp), ?_, hpc⟩
  rw [hpc]
  rfl

end Sys2Proof.Machine
